-- ==== Sys2Proof/Word.lean ====
section
/-! DEFINITION. The word types of the machine: what the spec treats as bits (`00_scope.md` R5, R9, R10). -/

namespace Sys2Proof

/-- A memory cell, a general register, a timer: 8 bits (R5). -/
abbrev Byte := BitVec 8

/-- The index register, the program counter, a stack slot, an instruction word: 16 bits (R5, R90). -/
abbrev Word := BitVec 16

/-- A 4-bit field: a register number `x` or `y`, a row count `n`, a key number (R10). -/
abbrev Nibble := BitVec 4

/-- A 12-bit address field `nnn` (R10). -/
abbrev Addr := BitVec 12

end Sys2Proof
end

