-- ==== Sys2Proof/Config.lean ====
section
/-! DEFINITION. The parameters of the machine (`00_scope.md` R5): the sizes the spec fixes, and, without a body, the
parameters and inputs the spec leaves open, so that no proof can see a value of theirs. -/

namespace Sys2Proof

/-- `MEM_SIZE`: valid addresses are 0x000 to 0xFFF (R5, R60). -/
abbrev Config.memSize : Nat := 4096

/-- `FONT_BASE`: the address of glyph 0 (R5). -/
abbrev Config.fontBase : Nat := 0x050

/-- `FONT_GLYPH_BYTES` (R5). -/
abbrev Config.glyphBytes : Nat := 5

/-- `PROG_BASE`: where the image is loaded and where execution starts (R5, R281, R284). -/
abbrev Config.progBase : Nat := 0x200

/-- `PROG_MAX`: the largest image (R5, R283). -/
abbrev Config.progMax : Nat := 3584

/-- `STACK_DEPTH` (R5, R26). -/
abbrev Config.stackDepth : Nat := 16

/-- `FB_WIDTH` (R5, R190). -/
abbrev Config.fbWidth : Nat := 64

/-- `FB_HEIGHT` (R5, R190). -/
abbrev Config.fbHeight : Nat := 32

/-- `TICK_PERIOD`: 1/60 second (R5, R201). -/
abbrev Config.tickPeriod : Rat := 1 / 60

/-- `INVALID_OPCODE_POLICY` is `halt` or `skip` (R5, R255). -/
inductive Policy where
  | halt
  | skip
  deriving DecidableEq, Repr, Inhabited

/-- The step uses the policy of this machine, an OPEN parameter (R255, U3; log entry 4). -/
opaque Config.invalidOpcodePolicy : Policy

/-- `FONT_ROM`: the 80 font bytes, an OPEN parameter (R282, U8; log entry 3). -/
opaque Config.fontRom : Vector Byte 80

/-- The byte `random_byte()` gives at its n-th call: a free value (R164, U4; log entry 1). -/
opaque Config.randomByte : Nat → Byte

/-- The time delta the driver supplies to the n-th step: a free, exact, non-negative input (R207, U9; log entry 2). -/
opaque Config.stepDelta : Nat → NNRat

end Sys2Proof
end

