-- ==== Sys2Proof/Machine/State.lean ====
section
/-! DEFINITION. The complete state of the machine (`10_state.md` R20) as plain data, the reasons a transaction can stop,
and the state after reset (R40). -/

namespace Sys2Proof.Machine

/-- "States per key: UP, DOWN" (`46_keypad.md` R210). -/
inductive KeyState where
  | up
  | down
  deriving DecidableEq, Repr

/-- The kinds of fault the machine records in its own state (`60_exceptions.md` R250). `LoadFailure`, code 1, is not
here: it leaves no machine to record it in (R283), see `Fault.loadFailure`. -/
inductive FaultKind where
  /-- Code 2: raised by decode when a word matches no row of R98, under policy halt (R255). -/
  | invalidOpcode
  /-- Code 3: raised by 2NNN when `sp = 16` (R143). -/
  | stackOverflow
  /-- Code 4: raised by 00EE when `sp = 0` (R141). -/
  | stackUnderflow
  /-- Code 5: raised by the fetch, DXYN, FX1E, FX33, FX55 and FX65 when an address exceeds 0xFFF (R66, R254). -/
  | memoryOutOfBounds
  /-- Code 6: raised by EX9E and EXA1 when `V[x] > 0x0F` (R217). -/
  | keyOutOfRange
  deriving DecidableEq, Repr

/-- The fault record `(kind, pc, opcode)`; a fetch fault has no opcode (R253). -/
structure FaultRecord where
  kind : FaultKind
  pc : Word
  opcode : Option Word
  deriving DecidableEq, Repr

/-- The log event `(w, pc)` of policy skip (R255). -/
structure LogEvent where
  opcode : Word
  pc : Word
  deriving DecidableEq, Repr

/-- Memory: the listed cells, addresses strictly rising, no entry equal to what an unlisted address reads as
(`Memory.wf`). -/
structure Memory where
  cells : List Host.Cell
  deriving DecidableEq, Repr

/-- Why a transaction gives no machine. The faults of an instruction are no outcome of this kind: they are recorded in
the state and halt it (R252), so a step is never one of these. -/
inductive Fault where
  /-- `LoadFailure`, code 1: raised by RESET for an image longer than 3584 bytes; there is no machine (R283).
  Safe: it is what the spec says. -/
  | loadFailure
  deriving DecidableEq, Repr

/-- Why a transaction has no meaning. No step answers one of these. -/
inductive Refusal where
  /-- An instruction without a meaning yet; raised by no arm of this model. Safe. -/
  | notModelled (mnemonic : String)
  /-- SET_KEY or GET_KEY with a key number of 16 or more: outside the interface (R211, R212, D30). Safe. -/
  | keyOutsideInterface
  /-- GET_PIXEL with `x >= 64` or `y >= 32`: "undefined for out-of-range coordinates" (R196, D30). Safe. -/
  | pixelOutsideInterface
  deriving DecidableEq, Repr

/-- The state of R20, under the spec's names; the last three fields are the model's own. -/
structure State where
  /-- Memory, 4096 cells of 8 bits (R60). -/
  mem : Memory
  /-- General registers `V[0x0]` to `V[0xF]`; `V[0xF]` is VF (R21, R22). -/
  V : Vector Byte 16
  /-- Index register (R23). -/
  I : Word
  /-- Program counter: the address of the instruction being executed (R24). -/
  pc : Word
  /-- Call stack (R26). -/
  stack : Vector Word 16
  /-- Stack pointer: the number of frames in use, 0 to 16 (R26). -/
  sp : Fin 17
  /-- Delay timer (R27). -/
  DT : Byte
  /-- Sound timer (R27). -/
  ST : Byte
  /-- Accumulator of elapsed time, in seconds, exact (R28). -/
  acc : Rat
  /-- The sixteen keys (R29). -/
  keys : Vector KeyState 16
  /-- Number of keys DOWN (R29). -/
  pressedCount : Nat
  /-- The most recently pressed key (R29). -/
  lastKey : Nibble
  /-- A key went DOWN since the latch was last cleared (R30). -/
  keyEvent : Bool
  /-- `none`, or `some x` for `WaitingForKey(x)` (R31). -/
  wait : Option Nibble
  /-- Framebuffer: bit `y*64 + x` is pixel `(x, y)`, 1 = ON (R32, R190). -/
  fb : BitVec 2048
  /-- A sprite instruction executed this step (R36). -/
  draw : Bool
  /-- The screen was cleared this step (R36). -/
  clear : Bool
  /-- The tone signal was emitted this step (R36, R202). -/
  tone : Bool
  /-- `none`, or why the machine is halted (R37). -/
  fault : Option FaultRecord
  /-- The model's own: how many random bytes have been drawn (R164; log entry 1). -/
  drawIndex : Nat
  /-- The model's own: how many time deltas have been taken (R207; log entry 2). -/
  stepIndex : Nat
  /-- The model's own: the log event this step emitted, an output (R255; log entry 5). -/
  log : Option LogEvent
  deriving DecidableEq, Repr

/-- The machine right after `RESET` of the empty image (R40, R280, R284). Memory lists nothing: what it reads as is
`Memory.blank`. The model's own fields start at 0, 0 and none (log entries 1, 2, 5). -/
def State.reset : State where
  mem := ⟨[]⟩
  V := Vector.replicate 16 0
  I := 0x0000
  pc := 0x0200
  stack := Vector.replicate 16 0
  sp := 0
  DT := 0
  ST := 0
  acc := 0
  keys := Vector.replicate 16 .up
  pressedCount := 0
  lastKey := 0
  keyEvent := false
  wait := none
  fb := 0
  draw := false
  clear := false
  tone := false
  fault := none
  drawIndex := 0
  stepIndex := 0
  log := none

end Sys2Proof.Machine
end

