-- ==== Sys2Proof/Machine/Ops.lean ====
section
/-! DEFINITION. The named operations over memory, registers and program counter (`00_scope.md` R11), the one operation
that raises a fault (`60_exceptions.md` R252), and the begin and the fetch of a step (`40_step_dispatch.md` R122, R123,
R125). There is no return from a fault: only RESET clears it (R257). -/

namespace Sys2Proof.Machine

/-! ### Memory -/

/-- What an address reads as when nothing has written it: the reset contents without an image, FONT_ROM at
[0x050, 0x0A0) and 0x00 elsewhere (`20_memory.md` R61, `70_reset_and_hazards.md` R281). -/
def Memory.blank (a : Nat) : Byte :=
  if h : Config.fontBase ≤ a ∧ a < Config.fontBase + 80 then
    Config.fontRom[a - Config.fontBase]'(by omega)
  else 0

/-- The byte listed for an address, if one is. -/
def Memory.find (a : Nat) : List Host.Cell → Option Byte
  | [] => none
  | (b, u) :: rest => if a = b then some u else Memory.find a rest

/-- `MemRead(a, 1)` (R11): the byte at an address. -/
def Memory.read (m : Memory) (a : Nat) : Byte :=
  (Memory.find a m.cells).getD (Memory.blank a)

/-- List a byte at an address, in its place. -/
def Memory.insert (a : Nat) (v : Byte) : List Host.Cell → List Host.Cell
  | [] => [(a, v)]
  | (b, u) :: rest =>
    if a < b then (a, v) :: (b, u) :: rest
    else if a = b then (a, v) :: rest
    else (b, u) :: Memory.insert a v rest

/-- Drop what is listed at an address. -/
def Memory.erase (a : Nat) : List Host.Cell → List Host.Cell
  | [] => []
  | (b, u) :: rest => if a = b then rest else (b, u) :: Memory.erase a rest

/-- `MemWrite(a, 1, v)` (R11), keeping the canonical form. An address outside the 4096 bytes does not exist (R60) and
takes no write; every instruction checks its range first (R66), so none asks for one. -/
def Memory.write (m : Memory) (a : Nat) (v : Byte) : Memory :=
  if a < Config.memSize then
    ⟨if v = Memory.blank a then Memory.erase a m.cells else Memory.insert a v m.cells⟩
  else m

/-- Write bytes at ascending addresses (R67). -/
def Memory.writeBytes (m : Memory) (a : Nat) : List Byte → Memory
  | [] => m
  | v :: vs => Memory.writeBytes (m.write a v) (a + 1) vs

/-- Read `k` bytes at ascending addresses (R67). -/
def Memory.readBytes (m : Memory) (a k : Nat) : List Byte :=
  (List.range k).map fun j => m.read (a + j)

/-- The canonical form: addresses strictly rising and inside the space, no entry equal to what an unlisted address
reads as. -/
abbrev Memory.wf (m : Memory) : Prop :=
  m.cells.Pairwise (fun c d => c.1 < d.1) ∧ ∀ c ∈ m.cells, c.1 < Config.memSize ∧ c.2 ≠ Memory.blank c.1

/-- `CheckRange(lo, hi)` passes when `hi <= 0xFFF` (R11, R66). -/
def inRange (hi : Nat) : Bool := decide (hi < Config.memSize)

/-! ### Registers -/

/-- `V[x]` (R11, R21). -/
def State.reg (s : State) (x : Nibble) : Byte := s.V[x.toNat]'(x.isLt)

/-- `V[x] <- v` (R11, R21). -/
def State.setReg (s : State) (x : Nibble) (v : Byte) : State :=
  { s with V := s.V.set x.toNat v x.isLt }

/-- `I <- v` (R23). -/
def State.setI (s : State) (v : Word) : State := { s with I := v }

/-- `pc <- t` (R11). -/
def State.setPc (s : State) (t : Word) : State := { s with pc := t }

/-- `pc <- pc + 2`: the end of a sequential instruction (R12, R25). -/
def State.advance (s : State) : State := s.setPc (s.pc + 2)

/-- The end of a skip instruction: `pc + 4` when the skip is taken, else `pc + 2` (`41_control_transfer.md` R140). -/
def State.skipWhen (s : State) (c : Bool) : State := s.setPc (if c then s.pc + 4 else s.pc + 2)

/-! ### Faults -/

/-- The numeric code of the fault that leaves no machine (R250). -/
def Fault.code : Fault → Nat
  | .loadFailure => 1

/-- The numeric code of a fault kind that the machine records (R250). -/
def FaultKind.code : FaultKind → Nat
  | .invalidOpcode => 2
  | .stackOverflow => 3
  | .stackUnderflow => 4
  | .memoryOutOfBounds => 5
  | .keyOutOfRange => 6

/-- `raise F` (R252): `fault <- (F, pc, opcode)`, nothing else is written, and the machine is halted from then on
(R121). -/
def State.raise (s : State) (kind : FaultKind) (opcode : Option Word) : State :=
  { s with fault := some ⟨kind, s.pc, opcode⟩ }

/-- `InvalidOpcode(w)` under either policy (R255): the fault, or a log event and `pc <- pc + 2` (D7). -/
def State.invalidOpcode (s : State) (policy : Policy) (w : Word) : State :=
  match policy with
  | .halt => s.raise .invalidOpcode (some w)
  | .skip => { s with pc := s.pc + 2, log := some ⟨w, s.pc⟩ }

/-! ### Fetch -/

/-- The fetch of `[pc, pc+1]` is in range exactly when `pc <= 0xFFE` (R125). -/
def State.canFetch (s : State) : Bool := inRange (s.pc.toNat + 1)

/-- `MemRead(pc, 2)`: the big-endian word at `pc` (R64, R125). -/
def State.fetchWord (s : State) : Word := s.mem.read s.pc.toNat ++ s.mem.read (s.pc.toNat + 1)

end Sys2Proof.Machine
end

