-- ==== Sys2Proof/Machine/Flags.lean ====
section
/-! DEFINITION. Every flag computation: the carry, the no-borrow flag and the bit shifted out (`43_alu.md` R170, R172,
R179, R181), computed on integers and narrowed at the end, and the write of a result and then its flag (R171). The
collision flag of DXYN is computed in Display.lean and written by `State.setFlag` too. -/

namespace Sys2Proof.Machine

/-- VF is `V[0xF]` (`10_state.md` R22). -/
def VF : Nibble := 0xF

/-- A flag as the byte 0x00 or 0x01 (R22). -/
def flagByte (c : Bool) : Byte := if c then 1 else 0

/-- `add_carry(a, b)`: the sum mod 256, and whether the sum exceeds 255 (R170). -/
def addCarry (a b : Byte) : Byte × Bool :=
  (BitVec.ofNat 8 ((a.toNat + b.toNat) % 256), decide (255 < a.toNat + b.toNat))

/-- `sub_borrow(a, b)`: the difference mod 256, and whether there was no borrow (R172). -/
def subBorrow (a b : Byte) : Byte × Bool :=
  (BitVec.ofInt 8 (((a.toNat : Int) - b.toNat) % 256), decide (b.toNat ≤ a.toNat))

/-- `a >> 1`, and the bit shifted out at the bottom (R179). -/
def shiftRightOut (a : Byte) : Byte × Bool := (a >>> 1, a.getLsbD 0)

/-- `(a << 1) mod 256`, and the bit shifted out at the top (R181). -/
def shiftLeftOut (a : Byte) : Byte × Bool := (a <<< 1, a.getLsbD 7)

/-- `V[0xF] <- flag` (R22). -/
def State.setFlag (s : State) (c : Bool) : State := s.setReg VF (flagByte c)

/-- Write the result to `V[x]` and afterwards the flag to VF; with `x = 0xF` the flag is what remains (R171, D15). -/
def State.setResult (s : State) (x : Nibble) (rc : Byte × Bool) : State := (s.setReg x rc.1).setFlag rc.2

end Sys2Proof.Machine
end

