-- ==== Sys2Proof/Machine/Alu.lean ====
section
/-! DEFINITION. The 8-bit ALU, family 0x8 (`43_alu.md`). Operands are read as they were before the instruction; the
result is written first and the flag last (R171). -/

namespace Sys2Proof.Machine

/-- 8XY0, `LD Vx, Vy` (R173). -/
def execLdReg (x y : Nibble) (s : State) : Host.Outcome State Fault Refusal :=
  .next (s.setReg x (s.reg y)).advance

/-- 8XY1, `OR Vx, Vy`; VF is not written (R174). -/
def execOrReg (x y : Nibble) (s : State) : Host.Outcome State Fault Refusal :=
  .next (s.setReg x (s.reg x ||| s.reg y)).advance

/-- 8XY2, `AND Vx, Vy`; VF is not written (R175). -/
def execAndReg (x y : Nibble) (s : State) : Host.Outcome State Fault Refusal :=
  .next (s.setReg x (s.reg x &&& s.reg y)).advance

/-- 8XY3, `XOR Vx, Vy`; VF is not written (R176). -/
def execXorReg (x y : Nibble) (s : State) : Host.Outcome State Fault Refusal :=
  .next (s.setReg x (s.reg x ^^^ s.reg y)).advance

/-- 8XY4, `ADD Vx, Vy` with carry out (R177). -/
def execAddReg (x y : Nibble) (s : State) : Host.Outcome State Fault Refusal :=
  .next (s.setResult x (addCarry (s.reg x) (s.reg y))).advance

/-- 8XY5, `SUB Vx, Vy`, VF = no borrow (R178). -/
def execSubReg (x y : Nibble) (s : State) : Host.Outcome State Fault Refusal :=
  .next (s.setResult x (subBorrow (s.reg x) (s.reg y))).advance

/-- 8XY6, `SHR Vx`; `y` is not used (R179, R100). -/
def execShr (x _y : Nibble) (s : State) : Host.Outcome State Fault Refusal :=
  .next (s.setResult x (shiftRightOut (s.reg x))).advance

/-- 8XY7, `SUBN Vx, Vy`: `V[y] - V[x]` to `V[x]`, VF = no borrow (R180). -/
def execSubnReg (x y : Nibble) (s : State) : Host.Outcome State Fault Refusal :=
  .next (s.setResult x (subBorrow (s.reg y) (s.reg x))).advance

/-- 8XYE, `SHL Vx`; `y` is not used (R181, R100). -/
def execShl (x _y : Nibble) (s : State) : Host.Outcome State Fault Refusal :=
  .next (s.setResult x (shiftLeftOut (s.reg x))).advance

end Sys2Proof.Machine
end

