-- ==== Sys2Proof/Syntax.lean ====
section
/-! DEFINITION. The instructions: one constructor for each of the 34 rows of `spec/opcode_table.json`
(`30_encoding.md` R98). Fields have exactly the widths of `00_scope.md` R10, so a field out of range cannot be
written. Fields the machine ignores (`n` of 5XYn and 9XYn, `y` of 8XY6 and 8XYE, R100) are kept: they are bits of the
word, and a fault record or an encoding must give them back. -/

namespace Sys2Proof

/-- An instruction, its operands in the order of the word's fields (R91, R98). -/
inductive Instr where
  /-- 00E0, `CLS` (R191). -/
  | cls
  /-- 00EE, `RET` (R141). -/
  | ret
  /-- 1NNN, `JP nnn` (R142). -/
  | jp (nnn : Addr)
  /-- 2NNN, `CALL nnn` (R143). -/
  | call (nnn : Addr)
  /-- 3XNN, `SE Vx, nn` (R144). -/
  | seImm (x : Nibble) (nn : Byte)
  /-- 4XNN, `SNE Vx, nn` (R145). -/
  | sneImm (x : Nibble) (nn : Byte)
  /-- 5XYn, `SE Vx, Vy` (R146). -/
  | seReg (x y n : Nibble)
  /-- 6XNN, `LD Vx, nn` (R160). -/
  | ldImm (x : Nibble) (nn : Byte)
  /-- 7XNN, `ADD Vx, nn` (R161). -/
  | addImm (x : Nibble) (nn : Byte)
  /-- 8XY0, `LD Vx, Vy` (R173). -/
  | ldReg (x y : Nibble)
  /-- 8XY1, `OR Vx, Vy` (R174). -/
  | orReg (x y : Nibble)
  /-- 8XY2, `AND Vx, Vy` (R175). -/
  | andReg (x y : Nibble)
  /-- 8XY3, `XOR Vx, Vy` (R176). -/
  | xorReg (x y : Nibble)
  /-- 8XY4, `ADD Vx, Vy` (R177). -/
  | addReg (x y : Nibble)
  /-- 8XY5, `SUB Vx, Vy` (R178). -/
  | subReg (x y : Nibble)
  /-- 8XY6, `SHR Vx` (R179). -/
  | shr (x y : Nibble)
  /-- 8XY7, `SUBN Vx, Vy` (R180). -/
  | subnReg (x y : Nibble)
  /-- 8XYE, `SHL Vx` (R181). -/
  | shl (x y : Nibble)
  /-- 9XYn, `SNE Vx, Vy` (R147). -/
  | sneReg (x y n : Nibble)
  /-- ANNN, `LD I, nnn` (R162). -/
  | ldI (nnn : Addr)
  /-- BNNN, `JP V0, nnn` (R148). -/
  | jpV0 (nnn : Addr)
  /-- CXNN, `RND Vx, nn` (R163). -/
  | rnd (x : Nibble) (nn : Byte)
  /-- DXYN, `DRW Vx, Vy, n` (R192). -/
  | drw (x y n : Nibble)
  /-- EX9E, `SKP Vx` (R213). -/
  | skp (x : Nibble)
  /-- EXA1, `SKNP Vx` (R214). -/
  | sknp (x : Nibble)
  /-- FX07, `LD Vx, DT` (R204). -/
  | getDT (x : Nibble)
  /-- FX0A, `LD Vx, K` (R215). -/
  | waitKey (x : Nibble)
  /-- FX15, `LD DT, Vx` (R205). -/
  | setDT (x : Nibble)
  /-- FX18, `LD ST, Vx` (R206). -/
  | setST (x : Nibble)
  /-- FX1E, `ADD I, Vx` (R230). -/
  | addI (x : Nibble)
  /-- FX29, `LD F, Vx` (R231). -/
  | ldFont (x : Nibble)
  /-- FX33, `LD B, Vx` (R232). -/
  | storeBcd (x : Nibble)
  /-- FX55, `LD [I], Vx` (R233). -/
  | storeRegs (x : Nibble)
  /-- FX65, `LD Vx, [I]` (R234). -/
  | loadRegs (x : Nibble)
  deriving DecidableEq, Repr

end Sys2Proof
end

