-- ==== Sys2Proof/Decode.lean ====
section
/-! DEFINITION. The decoder and, after it, the encoder, both from the opcode map of `30_encoding.md` (R91 to R99). -/

namespace Sys2Proof

/-- `fam = w[15:12]` (R10). -/
def famOf (w : Word) : Nibble := w.extractLsb' 12 4

/-- `x = w[11:8]` (R10). -/
def xOf (w : Word) : Nibble := w.extractLsb' 8 4

/-- `y = w[7:4]` (R10, C2). -/
def yOf (w : Word) : Nibble := w.extractLsb' 4 4

/-- `n = w[3:0]` (R10). -/
def nOf (w : Word) : Nibble := w.extractLsb' 0 4

/-- `nn = w[7:0]` (R10). -/
def nnOf (w : Word) : Byte := w.extractLsb' 0 8

/-- `nnn = w[11:0]` (R10). -/
def nnnOf (w : Word) : Addr := w.extractLsb' 0 12

/-- Family 0x0: the whole payload is compared (R94). -/
def decodeFixed (w : Word) : Option Instr :=
  match nnnOf w with
  | 0x0E0#12 => some .cls
  | 0x0EE#12 => some .ret
  | _ => none

/-- Family 0x8: secondary dispatch on `n` (R95). -/
def decodeAlu (w : Word) : Option Instr :=
  match nOf w with
  | 0x0#4 => some (.ldReg (xOf w) (yOf w))
  | 0x1#4 => some (.orReg (xOf w) (yOf w))
  | 0x2#4 => some (.andReg (xOf w) (yOf w))
  | 0x3#4 => some (.xorReg (xOf w) (yOf w))
  | 0x4#4 => some (.addReg (xOf w) (yOf w))
  | 0x5#4 => some (.subReg (xOf w) (yOf w))
  | 0x6#4 => some (.shr (xOf w) (yOf w))
  | 0x7#4 => some (.subnReg (xOf w) (yOf w))
  | 0xE#4 => some (.shl (xOf w) (yOf w))
  | _ => none

/-- Family 0xE: secondary dispatch on `nn` (R96). -/
def decodeKey (w : Word) : Option Instr :=
  match nnOf w with
  | 0x9E#8 => some (.skp (xOf w))
  | 0xA1#8 => some (.sknp (xOf w))
  | _ => none

/-- Family 0xF: secondary dispatch on `nn` (R97). -/
def decodeMisc (w : Word) : Option Instr :=
  match nnOf w with
  | 0x07#8 => some (.getDT (xOf w))
  | 0x0A#8 => some (.waitKey (xOf w))
  | 0x15#8 => some (.setDT (xOf w))
  | 0x18#8 => some (.setST (xOf w))
  | 0x1E#8 => some (.addI (xOf w))
  | 0x29#8 => some (.ldFont (xOf w))
  | 0x33#8 => some (.storeBcd (xOf w))
  | 0x55#8 => some (.storeRegs (xOf w))
  | 0x65#8 => some (.loadRegs (xOf w))
  | _ => none

/-- `Decode(w)` (R126): the instruction a word stands for, `none` for an invalid word (R99). Primary dispatch on
`fam` alone (R93); in families 0x5 and 0x9 `n` is not examined (R100). -/
def decodeWord (w : Word) : Option Instr :=
  match famOf w with
  | 0x0#4 => decodeFixed w
  | 0x1#4 => some (.jp (nnnOf w))
  | 0x2#4 => some (.call (nnnOf w))
  | 0x3#4 => some (.seImm (xOf w) (nnOf w))
  | 0x4#4 => some (.sneImm (xOf w) (nnOf w))
  | 0x5#4 => some (.seReg (xOf w) (yOf w) (nOf w))
  | 0x6#4 => some (.ldImm (xOf w) (nnOf w))
  | 0x7#4 => some (.addImm (xOf w) (nnOf w))
  | 0x8#4 => decodeAlu w
  | 0x9#4 => some (.sneReg (xOf w) (yOf w) (nOf w))
  | 0xA#4 => some (.ldI (nnnOf w))
  | 0xB#4 => some (.jpV0 (nnnOf w))
  | 0xC#4 => some (.rnd (xOf w) (nnOf w))
  | 0xD#4 => some (.drw (xOf w) (yOf w) (nOf w))
  | 0xE#4 => decodeKey w
  | 0xF#4 => decodeMisc w
  | _ => none

/-- Why bytes are no instruction. -/
inductive DecodeError where
  /-- Fewer than two bytes: an instruction is always one 16-bit word (R90). -/
  | truncated
  /-- The word matches no row of R98: `InvalidOpcode` (R99). -/
  | invalidOpcode (w : Word)
  deriving DecidableEq, Repr

/-- The 16-bit word of two bytes, big-endian: the first byte is `w[15:8]` (R64). -/
def wordOfBytes (hi lo : Byte) : Word := hi ++ lo

/-- Decode the instruction at the head of any bytes, and give the rest of them (R64, R90, R126). -/
def decodeBytes : List Byte → Except DecodeError (Instr × List Byte)
  | hi :: lo :: rest =>
    match decodeWord (wordOfBytes hi lo) with
    | some i => .ok (i, rest)
    | none => .error (.invalidOpcode (wordOfBytes hi lo))
  | _ => .error .truncated

/-- A word of the forms FIXED and NNN of R91. -/
def packNNN (fam : Nibble) (nnn : Addr) : Word := fam ++ nnn

/-- A word of the forms XNN and X of R91. -/
def packXNN (fam x : Nibble) (nn : Byte) : Word := fam ++ x ++ nn

/-- A word of the forms XY and XYN of R91. -/
def packXYN (fam x y n : Nibble) : Word := fam ++ x ++ y ++ n

/-- The word of an instruction, from the patterns of R98. -/
def encode : Instr → Word
  | .cls => packNNN 0x0 0x0E0
  | .ret => packNNN 0x0 0x0EE
  | .jp nnn => packNNN 0x1 nnn
  | .call nnn => packNNN 0x2 nnn
  | .seImm x nn => packXNN 0x3 x nn
  | .sneImm x nn => packXNN 0x4 x nn
  | .seReg x y n => packXYN 0x5 x y n
  | .ldImm x nn => packXNN 0x6 x nn
  | .addImm x nn => packXNN 0x7 x nn
  | .ldReg x y => packXYN 0x8 x y 0x0
  | .orReg x y => packXYN 0x8 x y 0x1
  | .andReg x y => packXYN 0x8 x y 0x2
  | .xorReg x y => packXYN 0x8 x y 0x3
  | .addReg x y => packXYN 0x8 x y 0x4
  | .subReg x y => packXYN 0x8 x y 0x5
  | .shr x y => packXYN 0x8 x y 0x6
  | .subnReg x y => packXYN 0x8 x y 0x7
  | .shl x y => packXYN 0x8 x y 0xE
  | .sneReg x y n => packXYN 0x9 x y n
  | .ldI nnn => packNNN 0xA nnn
  | .jpV0 nnn => packNNN 0xB nnn
  | .rnd x nn => packXNN 0xC x nn
  | .drw x y n => packXYN 0xD x y n
  | .skp x => packXNN 0xE x 0x9E
  | .sknp x => packXNN 0xE x 0xA1
  | .getDT x => packXNN 0xF x 0x07
  | .waitKey x => packXNN 0xF x 0x0A
  | .setDT x => packXNN 0xF x 0x15
  | .setST x => packXNN 0xF x 0x18
  | .addI x => packXNN 0xF x 0x1E
  | .ldFont x => packXNN 0xF x 0x29
  | .storeBcd x => packXNN 0xF x 0x33
  | .storeRegs x => packXNN 0xF x 0x55
  | .loadRegs x => packXNN 0xF x 0x65

/-- The first byte a word is stored as: `w[15:8]` (R64). -/
def hiByte (w : Word) : Byte := w.extractLsb' 8 8

/-- The second byte a word is stored as: `w[7:0]` (R64). -/
def loByte (w : Word) : Byte := w.extractLsb' 0 8

/-- The bytes of an instruction as the hardware stores them (R64). -/
def encodeBytes (i : Instr) : List Byte := [hiByte (encode i), loByte (encode i)]

/-- The word of `nbits` bits numbered as `spec/opcode_table.json` numbers them; every bit above `nbits` is 0. -/
def tableWord (nbits w : Nat) : Word := BitVec.ofNat 16 (w % 2 ^ nbits)

/-- The instruction the decoder reads from a table word, laid out as the hardware stores it (R64). -/
def decodeTableWord (nbits w : Nat) : Option Instr :=
  match decodeBytes [hiByte (tableWord nbits w), loByte (tableWord nbits w)] with
  | .ok (i, _) => some i
  | .error _ => none

end Sys2Proof
end

