-- ==== Sys2Proof/Machine/Operands.lean ====
section
/-! DEFINITION. The operand forms: immediates, addresses and key numbers, as unsigned integers exactly as they stand
(`30_encoding.md` R92), and the one addressing mode, `I` plus a displacement (`47_index_memory.md` R235). -/

namespace Sys2Proof.Machine

/-- `zext_16(nnn)` (R92). -/
def zextAddr (nnn : Addr) : Word := nnn.zeroExtend 16

/-- `zext_16(v)` of a byte (R11). -/
def zextByte (v : Byte) : Word := v.zeroExtend 16

/-- `zext_8(k)` of a key number (`46_keypad.md` R216). -/
def zextNibble (k : Nibble) : Byte := k.zeroExtend 8

/-- The effective address `I + i`, an integer, neither masked nor wrapped (R235). -/
def State.addr (s : State) (i : Nat) : Nat := s.I.toNat + i

/-- The state of the key whose number is the value `V[x]`; `none` when there is no such key (R217). -/
def State.keyAt (s : State) (x : Nibble) : Option KeyState :=
  if h : (s.reg x).toNat < 16 then some (s.keys[(s.reg x).toNat]) else none

/-- The registers `V[0]` to `V[x]`, in order (R233). -/
def State.regBlock (s : State) (x : Nibble) : List Byte :=
  (List.range (x.toNat + 1)).map fun i => s.reg (BitVec.ofNat 4 i)

/-- `V[i] <- v_i` for a list of bytes, from `V[i]` upwards (R234). -/
def State.setRegBlock (s : State) (i : Nat) : List Byte → State
  | [] => s
  | v :: vs => (s.setReg (BitVec.ofNat 4 i) v).setRegBlock (i + 1) vs

/-- The three decimal digits of a byte: hundreds, tens, ones (R232). -/
def bcdDigits (v : Byte) : List Byte :=
  [BitVec.ofNat 8 (v.toNat / 100), BitVec.ofNat 8 (v.toNat / 10 % 10), BitVec.ofNat 8 (v.toNat % 10)]

/-- The address of the font glyph for a value: `0x050 + 5 * v`, not masked (R231, D20). -/
def glyphAddr (v : Byte) : Word := BitVec.ofNat 16 (Config.fontBase + Config.glyphBytes * v.toNat)

end Sys2Proof.Machine
end

