-- ==== Sys2Proof/Machine/Control.lean ====
section
/-! DEFINITION. Control transfer: 00EE, 1NNN, 2NNN, 3XNN, 4XNN, 5XYn, 9XYn, BNNN (`41_control_transfer.md`). In each,
`pc` on the right-hand side is the address of the instruction (`10_state.md` R24); a target is stored unchecked, and
an out-of-range one faults at the next fetch (R140, D25). -/

namespace Sys2Proof.Machine

/-- Push `pc` on the call stack; `none` when all 16 frames are in use (R26, R143, D4). -/
def State.push (s : State) (v : Word) : Option State :=
  if h : s.sp.val < Config.stackDepth then
    some { s with stack := s.stack.set s.sp.val v h, sp := ⟨s.sp.val + 1, Nat.succ_lt_succ h⟩ }
  else none

/-- Pop the call stack; `none` when no frame is in use. The slot keeps its old contents (R26, R141, D4). -/
def State.pop (s : State) : Option (Word × State) :=
  if h : 0 < s.sp.val then
    some (s.stack[s.sp.val - 1]'(by have := s.sp.isLt; omega),
      { s with sp := ⟨s.sp.val - 1, by have := s.sp.isLt; omega⟩ })
  else none

/-- 00EE, `RET` (R141). -/
def execRet (s : State) : Host.Outcome State Fault Refusal :=
  match s.pop with
  | none => .next (s.raise .stackUnderflow (some (encode .ret)))
  | some (ra, t) => .next (t.setPc (ra + 2))

/-- 1NNN, `JP nnn` (R142). -/
def execJp (nnn : Addr) (s : State) : Host.Outcome State Fault Refusal :=
  .next (s.setPc (zextAddr nnn))

/-- 2NNN, `CALL nnn`: the address pushed is that of the CALL itself (R143). -/
def execCall (nnn : Addr) (s : State) : Host.Outcome State Fault Refusal :=
  match s.push s.pc with
  | none => .next (s.raise .stackOverflow (some (encode (.call nnn))))
  | some t => .next (t.setPc (zextAddr nnn))

/-- 3XNN, `SE Vx, nn` (R144). -/
def execSeImm (x : Nibble) (nn : Byte) (s : State) : Host.Outcome State Fault Refusal :=
  .next (s.skipWhen (s.reg x == nn))

/-- 4XNN, `SNE Vx, nn` (R145). -/
def execSneImm (x : Nibble) (nn : Byte) (s : State) : Host.Outcome State Fault Refusal :=
  .next (s.skipWhen (s.reg x != nn))

/-- 5XYn, `SE Vx, Vy`; `n` is not examined (R146, R100). -/
def execSeReg (x y _n : Nibble) (s : State) : Host.Outcome State Fault Refusal :=
  .next (s.skipWhen (s.reg x == s.reg y))

/-- 9XYn, `SNE Vx, Vy`; `n` is not examined (R147, R100). -/
def execSneReg (x y _n : Nibble) (s : State) : Host.Outcome State Fault Refusal :=
  .next (s.skipWhen (s.reg x != s.reg y))

/-- BNNN, `JP V0, nnn`: 16 bits, neither wrapped to 12 bits nor masked (R148). -/
def execJpV0 (nnn : Addr) (s : State) : Host.Outcome State Fault Refusal :=
  .next (s.setPc (zextAddr nnn + zextByte (s.reg 0)))

end Sys2Proof.Machine
end

