-- ==== Sys2Proof/Machine/Display.lean ====
section
/-! DEFINITION. The framebuffer: clear screen and the sprite XOR-blit engine, 00E0 and DXYN (`44_display.md`). -/

namespace Sys2Proof.Machine

/-- The coordinates are inside the frame (R190). -/
def inFrame (px py : Nat) : Bool := decide (px < Config.fbWidth) && decide (py < Config.fbHeight)

/-- The index of pixel `(px, py)` (R190). -/
def pixelIndex (px py : Nat) : Nat := py * Config.fbWidth + px

/-- Toggle one pixel of a framebuffer and note a collision, an ON pixel turned OFF; outside the frame nothing happens
(R192 to R194). -/
def plot (p : BitVec 2048 × Bool) (px py : Nat) : BitVec 2048 × Bool :=
  if inFrame px py then
    (p.1 ^^^ (1#2048 <<< pixelIndex px py), p.2 || p.1.getLsbD (pixelIndex px py))
  else p

/-- One row of a sprite: the most significant bit is column 0 (R192). Coordinates are integers, they do not wrap. -/
def blitRow (p : BitVec 2048 × Bool) (x0 py : Nat) (b : Byte) : BitVec 2048 × Bool :=
  (List.range 8).foldl (fun q col => if b.getLsbD (7 - col) then plot q (x0 + col) py else q) p

/-- The rows of a sprite, from `y0` downwards (R192). -/
def blit (p : BitVec 2048 × Bool) (x0 y0 : Nat) : List Byte → BitVec 2048 × Bool
  | [] => p
  | b :: bs => blit (blitRow p x0 y0 b) x0 (y0 + 1) bs

/-- The range check of DXYN: none with `n = 0`, else the `n` bytes from `I` must be in range (R192, R66). -/
def State.spriteInRange (s : State) (n : Nibble) : Bool := n == 0 || inRange (s.addr (n.toNat - 1))

/-- The framebuffer and the collision after the sprite of `n` bytes at `I` is blitted at `(V[x], V[y])` (R192). -/
def State.sprite (s : State) (x y n : Nibble) : BitVec 2048 × Bool :=
  blit (s.fb, false) (s.reg x).toNat (s.reg y).toNat (s.mem.readBytes s.I.toNat n.toNat)

/-- 00E0, `CLS` (R191). -/
def execCls (s : State) : Host.Outcome State Fault Refusal :=
  .next { s with fb := 0, clear := true }.advance

/-- DXYN, `DRW Vx, Vy, n`: VF is written last and always, `draw` is set also when nothing is drawn (R192, D19). -/
def execDrw (x y n : Nibble) (s : State) : Host.Outcome State Fault Refusal :=
  if s.spriteInRange n then
    .next ({ s with fb := (s.sprite x y n).1, draw := true }.setFlag (s.sprite x y n).2).advance
  else .next (s.raise .memoryOutOfBounds (some (encode (.drw x y n))))

end Sys2Proof.Machine
end

