-- ==== Sys2Proof/Machine/Immediate.lean ====
section
/-! DEFINITION. Immediate load and add, index load, random: 6XNN, 7XNN, ANNN, CXNN (`42_immediate_index_random.md`). -/

namespace Sys2Proof.Machine

/-- `draw(8)`: a fresh free byte from the environment, under no law (R164, log entry 1). -/
def State.drawByte (s : State) : Byte × State :=
  (Config.randomByte s.drawIndex, { s with drawIndex := s.drawIndex + 1 })

/-- 6XNN, `LD Vx, nn` (R160). -/
def execLdImm (x : Nibble) (nn : Byte) (s : State) : Host.Outcome State Fault Refusal :=
  .next (s.setReg x nn).advance

/-- 7XNN, `ADD Vx, nn`: modulo 256, VF not written (R161). -/
def execAddImm (x : Nibble) (nn : Byte) (s : State) : Host.Outcome State Fault Refusal :=
  .next (s.setReg x (s.reg x + nn)).advance

/-- ANNN, `LD I, nnn` (R162). -/
def execLdI (nnn : Addr) (s : State) : Host.Outcome State Fault Refusal :=
  .next (s.setI (zextAddr nnn)).advance

/-- CXNN, `RND Vx, nn` (R163). -/
def execRnd (x : Nibble) (nn : Byte) (s : State) : Host.Outcome State Fault Refusal :=
  .next (s.drawByte.2.setReg x (s.drawByte.1 &&& nn)).advance

end Sys2Proof.Machine
end

