-- ==== Sys2Proof/Machine/IndexMemory.lean ====
section
/-! DEFINITION. Index arithmetic, font lookup, BCD store and register block transfer: FX1E, FX29, FX33, FX55, FX65
(`47_index_memory.md`). The whole range is checked before the first access (R235); `I` is left unchanged by FX33, FX55
and FX65 (R236, D21). -/

namespace Sys2Proof.Machine

/-- FX1E, `ADD I, Vx`: a sum above 0xFFF faults and is not stored (R230, C5, D10). -/
def execAddI (x : Nibble) (s : State) : Host.Outcome State Fault Refusal :=
  if inRange (s.addr (s.reg x).toNat) then .next (s.setI (BitVec.ofNat 16 (s.addr (s.reg x).toNat))).advance
  else .next (s.raise .memoryOutOfBounds (some (encode (.addI x))))

/-- FX29, `LD F, Vx` (R231). -/
def execLdFont (x : Nibble) (s : State) : Host.Outcome State Fault Refusal :=
  .next (s.setI (glyphAddr (s.reg x))).advance

/-- Store bytes at `I` and on, when the whole range is in Memory, else raise MemoryOutOfBounds with the instruction's
word (R66, R235). -/
def State.storeAtI (s : State) (bytes : List Byte) (w : Word) : State :=
  if inRange (s.addr (bytes.length - 1)) then { s with mem := s.mem.writeBytes s.I.toNat bytes }.advance
  else s.raise .memoryOutOfBounds (some w)

/-- FX33, `LD B, Vx` (R232). -/
def execStoreBcd (x : Nibble) (s : State) : Host.Outcome State Fault Refusal :=
  .next (s.storeAtI (bcdDigits (s.reg x)) (encode (.storeBcd x)))

/-- FX55, `LD [I], Vx`: registers `V[0]` to `V[x]`, inclusive (R233). -/
def execStoreRegs (x : Nibble) (s : State) : Host.Outcome State Fault Refusal :=
  .next (s.storeAtI (s.regBlock x) (encode (.storeRegs x)))

/-- FX65, `LD Vx, [I]`: registers `V[0]` to `V[x]`, inclusive (R234). -/
def execLoadRegs (x : Nibble) (s : State) : Host.Outcome State Fault Refusal :=
  if inRange (s.addr x.toNat) then .next (s.setRegBlock 0 (s.mem.readBytes s.I.toNat (x.toNat + 1))).advance
  else .next (s.raise .memoryOutOfBounds (some (encode (.loadRegs x))))

end Sys2Proof.Machine
end

