-- ==== Sys2Proof/Machine/Keypad.lean ====
section
/-! DEFINITION. The keypad: what SET_KEY does, the key skips EX9E and EXA1, the key-wait FX0A and its poll
(`46_keypad.md`). -/

namespace Sys2Proof.Machine

/-- The state of key `k` (R212). -/
def State.key (s : State) (k : Nibble) : KeyState := s.keys[k.toNat]'(k.isLt)

/-- `SET_KEY(k, st)`: nothing when the key already has that state (R211, D23). -/
def State.setKey (s : State) (k : Nibble) (st : KeyState) : State :=
  match st, s.key k with
  | .down, .up =>
    { s with
      keys := s.keys.set k.toNat .down k.isLt, pressedCount := s.pressedCount + 1, lastKey := k, keyEvent := true }
  | .up, .down => { s with keys := s.keys.set k.toNat .up k.isLt, pressedCount := s.pressedCount - 1 }
  | .down, .down => s
  | .up, .up => s

/-- EX9E, `SKP Vx` (R213, R217). -/
def execSkp (x : Nibble) (s : State) : Host.Outcome State Fault Refusal :=
  match s.keyAt x with
  | some k => .next (s.skipWhen (k == .down))
  | none => .next (s.raise .keyOutOfRange (some (encode (.skp x))))

/-- EXA1, `SKNP Vx` (R214, R217). -/
def execSknp (x : Nibble) (s : State) : Host.Outcome State Fault Refusal :=
  match s.keyAt x with
  | some k => .next (s.skipWhen (k == .up))
  | none => .next (s.raise .keyOutOfRange (some (encode (.sknp x))))

/-- FX0A, `LD Vx, K`: enter the key-wait; only key-down events from here on count, and `pc` stays (R215, D11). -/
def execWaitKey (x : Nibble) (s : State) : Host.Outcome State Fault Refusal :=
  .next { s with wait := some x, keyEvent := false }

/-- `WaitPoll(x)`, the whole work of a step that finds `wait = WaitingForKey(x)`: a new key-down event completes the
wait (R216, D11). -/
def State.waitPoll (s : State) (x : Nibble) : State :=
  if s.keyEvent then
    ({ s with keyEvent := false, wait := none }.setReg x (zextNibble s.lastKey)).advance
  else s

end Sys2Proof.Machine
end

