-- ==== Sys2Proof/Machine/Timers.lean ====
section
/-! DEFINITION. The timer subsystem, phase 1 of every step, the clearing of the transient flags, and the instructions
FX07, FX15, FX18 (`45_timers.md`, `40_step_dispatch.md` R122, R123). -/

namespace Sys2Proof.Machine

/-- This step ticks: the accumulator "reaches or exceeds" 1/60 second (R201). -/
def State.ticks (s : State) (dt : NNRat) : Bool := decide (Config.tickPeriod ≤ s.acc + (dt : Rat))

/-- A counter one lower, floor at 0 (R200, R201). -/
def countDown (v : Byte) : Byte := if v = 0 then 0 else v - 1

/-- `TimerAdvance(dt)` (R201): at most one tick, the excess discarded; the tone is emitted in the tick that finds
`ST = 1` (R202, D13). -/
def State.timerAdvance (s : State) (dt : NNRat) : State :=
  { s with
    acc := if s.ticks dt then 0 else s.acc + (dt : Rat)
    DT := if s.ticks dt then countDown s.DT else s.DT
    ST := if s.ticks dt then countDown s.ST else s.ST
    tone := s.tone || (s.ticks dt && s.ST == 1) }

/-- What every step of a machine that is not halted does before its key-wait check and its fetch (R120): clear `tone`,
advance the timers, clear `draw` and `clear`. The model's own log output is cleared with them, and the step's time
delta is used up (log entries 2 and 5). -/
def State.beginStep (s : State) (dt : NNRat) : State :=
  { ({ s with tone := false }.timerAdvance dt) with
    draw := false, clear := false, log := none, stepIndex := s.stepIndex + 1 }

/-- FX07, `LD Vx, DT` (R204). -/
def execGetDT (x : Nibble) (s : State) : Host.Outcome State Fault Refusal :=
  .next (s.setReg x s.DT).advance

/-- FX15, `LD DT, Vx`; the accumulator is not touched (R205). -/
def execSetDT (x : Nibble) (s : State) : Host.Outcome State Fault Refusal :=
  .next { s with DT := s.reg x }.advance

/-- FX18, `LD ST, Vx` (R206). -/
def execSetST (x : Nibble) (s : State) : Host.Outcome State Fault Refusal :=
  .next { s with ST := s.reg x }.advance

end Sys2Proof.Machine
end

