-- ==== Sys2Proof/Machine/Cycle.lean ====
section
/-! DEFINITION. `STEP(dt)` for a given time delta and a given policy, phase by phase (`40_step_dispatch.md` R120). -/

namespace Sys2Proof.Machine

/-- Phases 3 and 4: fetch with its range check, decode, dispatch (R125 to R127). A fetch fault records no opcode
(R253). -/
def State.fetchAndExecute (s : State) (policy : Policy) : Host.Outcome State Fault Refusal :=
  if s.canFetch then
    match decodeWord s.fetchWord with
    | some i => exec i s
    | none => .next (s.invalidOpcode policy s.fetchWord)
  else .next (s.raise .memoryOutOfBounds none)

/-- After phases 1 and 2: a key-wait is polled and nothing is fetched, else the next instruction runs (R124). -/
def State.pollOrFetch (s : State) (policy : Policy) : Host.Outcome State Fault Refusal :=
  match s.wait with
  | some x => .next (s.waitPoll x)
  | none => s.fetchAndExecute policy

/-- `STEP(dt)` (R120): a halted machine does nothing (R121), any other runs its phases. -/
def stepWith (dt : NNRat) (policy : Policy) (s : State) : Host.Outcome State Fault Refusal :=
  match s.fault with
  | some _ => .next s
  | none => (s.beginStep dt).pollOrFetch policy

/-- Memory with the word at `pc` in its two bytes, `w[15:8]` first (R64). -/
def State.memWithWordAtPc (s : State) (w : Word) : Memory :=
  s.mem.writeBytes s.pc.toNat [hiByte w, loByte w]

/-- What the very next step needs to fetch at `pc`: no fault recorded, no key-wait, and a `pc` that can be fetched
from, else the one of reset (R121, R124, R125). A state that has all three is unchanged. -/
def State.readyToFetch (s : State) : State :=
  { s with fault := none, wait := none, pc := if s.canFetch then s.pc else State.reset.pc }

end Sys2Proof.Machine
end

