-- ==== Sys2Proof/Machine/Step.lean ====
section
/-! DEFINITION. One step of this machine: `STEP(dt)` with the delta the driver supplies to this step and the machine's
own policy, both open (`45_timers.md` R207, `60_exceptions.md` R255). -/

namespace Sys2Proof.Machine

/-- One STEP (R120). -/
def step (s : State) : Host.Outcome State Fault Refusal :=
  stepWith (Config.stepDelta s.stepIndex) Config.invalidOpcodePolicy s

/-- The state with the table word stored where the next step fetches (log entry 6). -/
def State.withFetchWord (s : State) (nbits w : Nat) : State :=
  { s.readyToFetch with mem := s.readyToFetch.memWithWordAtPc (tableWord nbits w) }

end Sys2Proof.Machine
end

