-- ==== Sys2Proof/Machine/Interface.lean ====
section
/-! DEFINITION. The transactions of the interface (`00_scope.md` R8) besides STEP: RESET(image), SET_KEY, GET_KEY,
GET_PIXEL. The flags `draw`, `clear`, `tone` and the fault record are read as the fields of the state. -/

namespace Sys2Proof.Machine

/-- `RESET(image)` that brings a machine into being: the reset state with the image copied to 0x200, or `LoadFailure` and no machine; no truncation
(`70_reset_and_hazards.md` R280, R281, R283). -/
def State.load (image : List Byte) : Host.Outcome State Fault Refusal :=
  if image.length ≤ Config.progMax then
    .next { State.reset with mem := State.reset.mem.writeBytes Config.progBase image }
  else .fault .loadFailure

/-- `RESET(image)` of a machine that exists, halted or not: nothing of the earlier run survives (R280). The model's two
counters go on, being no part of the machine: what is drawn after a RESET is as fresh as before it
(`42_immediate_index_random.md` R164, `45_timers.md` R207; log entries 1 and 2). -/
def State.reload (s : State) (image : List Byte) : Host.Outcome State Fault Refusal :=
  match State.load image with
  | .next t => .next { t with drawIndex := s.drawIndex, stepIndex := s.stepIndex }
  | .fault f => .fault f
  | .refused r => .refused r

/-- `SET_KEY(k, st)` with any key number; outside 0..15 it is no transaction of the interface (R211, D30). -/
def State.setKeyNumber (s : State) (k : Nat) (st : KeyState) : Host.Outcome State Fault Refusal :=
  if k < 16 then .next (s.setKey (BitVec.ofNat 4 k) st) else .refused .keyOutsideInterface

/-- `GET_KEY(k)`: the key's state, and nothing changes (R212, D30). -/
def State.getKey (s : State) (k : Nat) : Except Refusal KeyState :=
  if k < 16 then .ok (s.key (BitVec.ofNat 4 k)) else .error .keyOutsideInterface

/-- `GET_PIXEL(x, y)`: ON is `true`, and nothing changes (`44_display.md` R196, D30). -/
def State.getPixel (s : State) (x y : Nat) : Except Refusal Bool :=
  if inFrame x y then .ok (s.fb.getLsbD (pixelIndex x y)) else .error .pixelOutsideInterface

/-- The transactions that may change the state (R8). -/
inductive Transaction where
  | reset (image : List Byte)
  | step (dt : NNRat)
  | setKey (k : Nat) (st : KeyState)
  deriving DecidableEq

/-- What a transaction does to a machine (R8); transactions never overlap (R7). -/
def transact (policy : Policy) (t : Transaction) (s : State) : Host.Outcome State Fault Refusal :=
  match t with
  | .reset image => s.reload image
  | .step dt => stepWith dt policy s
  | .setKey k st => s.setKeyNumber k st

end Sys2Proof.Machine
end

