-- ==== Sys2Proof/Safety.lean ====
section
/-! DEFINITION. What claims are stated in terms of: the invariants of the machine, the states that runs reach, and
which instruction may write which state (`10_state.md` R43). -/

namespace Sys2Proof.Machine

/-- The number of keys DOWN (`10_state.md` R29). -/
def State.keysDown (s : State) : Nat := s.keys.toList.count KeyState.down

/-- The invariants the spec states of its state between steps:
`I <= 0xFFF` (R23), `pc <= 0x10FE` (R25), `0 <= acc < TICK_PERIOD` (R28), `pressed_count` is the number of keys DOWN
(R29), every frame in use holds the address of a CALL that was fetched (`stack[j] <= 0xFFE`, R141), a waiting machine
has `pc` at the FX0A it fetched (R215), a fault record holds the unchanged `pc` (R253) and no machine both waits and is
halted (R130); and memory keeps its canonical form. -/
structure State.Inv (s : State) : Prop where
  mem_wf : s.mem.wf
  i_bound : s.I.toNat ≤ 0xFFF
  pc_bound : s.pc.toNat ≤ 0x10FE
  acc_nonneg : 0 ≤ s.acc
  acc_bound : s.acc < Config.tickPeriod
  count_eq : s.pressedCount = s.keysDown
  frames : ∀ j, ∀ h : j < 16, j < s.sp.val → s.stack[j].toNat ≤ 0xFFE
  wait_pc : s.wait.isSome → s.pc.toNat ≤ 0xFFE
  fault_pc : ∀ r, s.fault = some r → r.pc = s.pc
  fault_no_wait : s.fault.isSome → s.wait = none

/-- The states of the machine under every interleaving of transactions the environment may choose (R7, R8): any image,
at the beginning and at every later RESET, any time deltas, any keys at any point between steps. -/
inductive Reachable (policy : Policy) : State → Prop where
  | reset (image : List Byte) (s : State) : State.load image = .next s → Reachable policy s
  | transact (t : Transaction) (s s' : State) :
      Reachable policy s → transact policy t s = .next s' → Reachable policy s'

/-- The sprite of `n` rows at `I`, drawn at `(V[x], V[y])`, has a 1 bit on pixel `(px, py)` (`44_display.md` R192): some
row and column fall there, coordinates being summed as integers, the most significant bit being column 0. -/
def State.spriteCovers (s : State) (x y n : Nibble) (px py : Nat) : Prop :=
  ∃ row < n.toNat, ∃ col < 8, px = (s.reg x).toNat + col ∧ py = (s.reg y).toNat + row ∧
    (s.mem.read (s.I.toNat + row)).getLsbD (7 - col) = true

end Sys2Proof.Machine

namespace Sys2Proof

open Sys2Proof.Machine

/-- A row of the opcode map: a word `w` is the row's instruction exactly when `w & mask = match` (R98). -/
structure OpcodeRow where
  mask : Word
  pattern : Word
  deriving DecidableEq, Repr

/-- The row of an instruction (R98). -/
def Instr.row : Instr → OpcodeRow
  | .cls => ⟨0xFFFF, 0x00E0⟩
  | .ret => ⟨0xFFFF, 0x00EE⟩
  | .jp _ => ⟨0xF000, 0x1000⟩
  | .call _ => ⟨0xF000, 0x2000⟩
  | .seImm _ _ => ⟨0xF000, 0x3000⟩
  | .sneImm _ _ => ⟨0xF000, 0x4000⟩
  | .seReg _ _ _ => ⟨0xF000, 0x5000⟩
  | .ldImm _ _ => ⟨0xF000, 0x6000⟩
  | .addImm _ _ => ⟨0xF000, 0x7000⟩
  | .ldReg _ _ => ⟨0xF00F, 0x8000⟩
  | .orReg _ _ => ⟨0xF00F, 0x8001⟩
  | .andReg _ _ => ⟨0xF00F, 0x8002⟩
  | .xorReg _ _ => ⟨0xF00F, 0x8003⟩
  | .addReg _ _ => ⟨0xF00F, 0x8004⟩
  | .subReg _ _ => ⟨0xF00F, 0x8005⟩
  | .shr _ _ => ⟨0xF00F, 0x8006⟩
  | .subnReg _ _ => ⟨0xF00F, 0x8007⟩
  | .shl _ _ => ⟨0xF00F, 0x800E⟩
  | .sneReg _ _ _ => ⟨0xF000, 0x9000⟩
  | .ldI _ => ⟨0xF000, 0xA000⟩
  | .jpV0 _ => ⟨0xF000, 0xB000⟩
  | .rnd _ _ => ⟨0xF000, 0xC000⟩
  | .drw _ _ _ => ⟨0xF000, 0xD000⟩
  | .skp _ => ⟨0xF0FF, 0xE09E⟩
  | .sknp _ => ⟨0xF0FF, 0xE0A1⟩
  | .getDT _ => ⟨0xF0FF, 0xF007⟩
  | .waitKey _ => ⟨0xF0FF, 0xF00A⟩
  | .setDT _ => ⟨0xF0FF, 0xF015⟩
  | .setST _ => ⟨0xF0FF, 0xF018⟩
  | .addI _ => ⟨0xF0FF, 0xF01E⟩
  | .ldFont _ => ⟨0xF0FF, 0xF029⟩
  | .storeBcd _ => ⟨0xF0FF, 0xF033⟩
  | .storeRegs _ => ⟨0xF0FF, 0xF055⟩
  | .loadRegs _ => ⟨0xF0FF, 0xF065⟩

/-- The complete opcode map: the 34 rows in the order of R98. -/
def opcodeRows : List OpcodeRow :=
  [⟨0xFFFF, 0x00E0⟩, ⟨0xFFFF, 0x00EE⟩, ⟨0xF000, 0x1000⟩, ⟨0xF000, 0x2000⟩, ⟨0xF000, 0x3000⟩,
   ⟨0xF000, 0x4000⟩, ⟨0xF000, 0x5000⟩, ⟨0xF000, 0x6000⟩, ⟨0xF000, 0x7000⟩, ⟨0xF00F, 0x8000⟩,
   ⟨0xF00F, 0x8001⟩, ⟨0xF00F, 0x8002⟩, ⟨0xF00F, 0x8003⟩, ⟨0xF00F, 0x8004⟩, ⟨0xF00F, 0x8005⟩,
   ⟨0xF00F, 0x8006⟩, ⟨0xF00F, 0x8007⟩, ⟨0xF00F, 0x800E⟩, ⟨0xF000, 0x9000⟩, ⟨0xF000, 0xA000⟩,
   ⟨0xF000, 0xB000⟩, ⟨0xF000, 0xC000⟩, ⟨0xF000, 0xD000⟩, ⟨0xF0FF, 0xE09E⟩, ⟨0xF0FF, 0xE0A1⟩,
   ⟨0xF0FF, 0xF007⟩, ⟨0xF0FF, 0xF00A⟩, ⟨0xF0FF, 0xF015⟩, ⟨0xF0FF, 0xF018⟩, ⟨0xF0FF, 0xF01E⟩,
   ⟨0xF0FF, 0xF029⟩, ⟨0xF0FF, 0xF033⟩, ⟨0xF0FF, 0xF055⟩, ⟨0xF0FF, 0xF065⟩]

/-- The fault an instruction raises, from the table of exact conditions (`60_exceptions.md` R254); `none` when it
completes. -/
def Instr.faultOf (i : Instr) (s : State) : Option FaultKind :=
  match i with
  | .call _ => if s.sp.val = 16 then some .stackOverflow else none
  | .ret => if s.sp.val = 0 then some .stackUnderflow else none
  | .drw _ _ n =>
    if 0 < n.toNat ∧ 0xFFF < s.I.toNat + n.toNat - 1 then some .memoryOutOfBounds else none
  | .addI x => if 0xFFF < s.I.toNat + (s.reg x).toNat then some .memoryOutOfBounds else none
  | .storeBcd _ => if 0xFFF < s.I.toNat + 2 then some .memoryOutOfBounds else none
  | .storeRegs x => if 0xFFF < s.I.toNat + x.toNat then some .memoryOutOfBounds else none
  | .loadRegs x => if 0xFFF < s.I.toNat + x.toNat then some .memoryOutOfBounds else none
  | .skp x => if 0x0F < (s.reg x).toNat then some .keyOutOfRange else none
  | .sknp x => if 0x0F < (s.reg x).toNat then some .keyOutOfRange else none
  | .cls => none
  | .jp _ => none
  | .seImm _ _ => none
  | .sneImm _ _ => none
  | .seReg _ _ _ => none
  | .ldImm _ _ => none
  | .addImm _ _ => none
  | .ldReg _ _ => none
  | .orReg _ _ => none
  | .andReg _ _ => none
  | .xorReg _ _ => none
  | .addReg _ _ => none
  | .subReg _ _ => none
  | .shr _ _ => none
  | .subnReg _ _ => none
  | .shl _ _ => none
  | .sneReg _ _ _ => none
  | .ldI _ => none
  | .jpV0 _ => none
  | .rnd _ _ => none
  | .getDT _ => none
  | .waitKey _ => none
  | .setDT _ => none
  | .setST _ => none
  | .ldFont _ => none

/-- What the instruction leaves is specified: it completes, or its fault is StackOverflow. After any other fault the spec
asks that nothing but the fault record be relied on (`60_exceptions.md` R252, U1; log entry 8). -/
def Instr.leavesSpecified (i : Instr) (s : State) : Prop :=
  i.faultOf s = none ∨ i.faultOf s = some .stackOverflow

/-- The instruction answers a next state that differs from `s` only in `V` and `pc`: `V[x]` holds `v`, every other
register what it held, and `pc` has moved past the instruction. So no memory, flag or other state changes. -/
def CompletesWithReg (i : Instr) (s : State) (x : Nibble) (v : Byte) : Prop :=
  ∃ t, exec i s = .next t ∧ t = { s with V := t.V, pc := s.pc + 2 } ∧
    ∀ r, t.reg r = if r = x then v else s.reg r

/-- As `CompletesWithReg`, with a flag written to VF after the result: VF holds the flag, also when `x = 0xF`
(`43_alu.md` R171). -/
def CompletesWithFlag (i : Instr) (s : State) (x : Nibble) (v f : Byte) : Prop :=
  ∃ t, exec i s = .next t ∧ t = { s with V := t.V, pc := s.pc + 2 } ∧
    ∀ r, t.reg r = if r = 0xF then f else if r = x then v else s.reg r

/-- The instruction may write register `r`: as a destination named by a field, as a register of FX65's block, or VF as
a flag (R43, R22). FX0A writes its register in the step that completes the wait, not in its own. -/
def Instr.writesReg (i : Instr) (r : Nibble) : Bool :=
  match i with
  | .ldImm x _ => r == x
  | .addImm x _ => r == x
  | .ldReg x _ => r == x
  | .orReg x _ => r == x
  | .andReg x _ => r == x
  | .xorReg x _ => r == x
  | .addReg x _ => r == x || r == 0xF
  | .subReg x _ => r == x || r == 0xF
  | .shr x _ => r == x || r == 0xF
  | .subnReg x _ => r == x || r == 0xF
  | .shl x _ => r == x || r == 0xF
  | .rnd x _ => r == x
  | .drw _ _ _ => r == 0xF
  | .getDT x => r == x
  | .loadRegs x => decide (r.toNat ≤ x.toNat)
  | .cls => false
  | .ret => false
  | .jp _ => false
  | .call _ => false
  | .seImm _ _ => false
  | .sneImm _ _ => false
  | .seReg _ _ _ => false
  | .sneReg _ _ _ => false
  | .ldI _ => false
  | .jpV0 _ => false
  | .skp _ => false
  | .sknp _ => false
  | .waitKey _ => false
  | .setDT _ => false
  | .setST _ => false
  | .addI _ => false
  | .ldFont _ => false
  | .storeBcd _ => false
  | .storeRegs _ => false

/-- How many bytes from `I` the instruction stores (R43, R232, R233). -/
def Instr.storedBytes (i : Instr) : Nat :=
  match i with
  | .storeBcd _ => 3
  | .storeRegs x => x.toNat + 1
  | .cls => 0
  | .ret => 0
  | .jp _ => 0
  | .call _ => 0
  | .seImm _ _ => 0
  | .sneImm _ _ => 0
  | .seReg _ _ _ => 0
  | .ldImm _ _ => 0
  | .addImm _ _ => 0
  | .ldReg _ _ => 0
  | .orReg _ _ => 0
  | .andReg _ _ => 0
  | .xorReg _ _ => 0
  | .addReg _ _ => 0
  | .subReg _ _ => 0
  | .shr _ _ => 0
  | .subnReg _ _ => 0
  | .shl _ _ => 0
  | .sneReg _ _ _ => 0
  | .ldI _ => 0
  | .jpV0 _ => 0
  | .rnd _ _ => 0
  | .drw _ _ _ => 0
  | .skp _ => 0
  | .sknp _ => 0
  | .getDT _ => 0
  | .waitKey _ => 0
  | .setDT _ => 0
  | .setST _ => 0
  | .addI _ => 0
  | .ldFont _ => 0
  | .loadRegs _ => 0

end Sys2Proof
end

