-- ==== Sys2Proof/WellFormed.lean ====
section
/-! DEFINITION. What an assembler may emit. Field widths hold by the types of `Instr`; what is left to check is
`30_encoding.md` R100 (a): the canonical encodings of 5XYn and 9XYn have `n = 0`. Every other field value is legal
(R92, R100). The machine executes the non-canonical words too (D16), so no meaning and no decoder asks this check. -/

namespace Sys2Proof

/-- The instruction is in canonical form (R100). -/
def Instr.wellFormed : Instr → Bool
  | .seReg _ _ n => n == 0
  | .sneReg _ _ n => n == 0
  | .cls => true
  | .ret => true
  | .jp _ => true
  | .call _ => true
  | .seImm _ _ => true
  | .sneImm _ _ => true
  | .ldImm _ _ => true
  | .addImm _ _ => true
  | .ldReg _ _ => true
  | .orReg _ _ => true
  | .andReg _ _ => true
  | .xorReg _ _ => true
  | .addReg _ _ => true
  | .subReg _ _ => true
  | .shr _ _ => true
  | .subnReg _ _ => true
  | .shl _ _ => true
  | .ldI _ => true
  | .jpV0 _ => true
  | .rnd _ _ => true
  | .drw _ _ _ => true
  | .skp _ => true
  | .sknp _ => true
  | .getDT _ => true
  | .waitKey _ => true
  | .setDT _ => true
  | .setST _ => true
  | .addI _ => true
  | .ldFont _ => true
  | .storeBcd _ => true
  | .storeRegs _ => true
  | .loadRegs _ => true

end Sys2Proof
end

