-- ==== Sys2Proof/Certificates/Slice0/Obligations.lean ====
section
/-! DEFINITION. The statements for the provers, each about every state or every word. A next state is written as the old
state with the named fields changed, so each such statement is also its instruction's frame: every field it does not
name, memory among them, is what it was. -/

open Sys2Proof Sys2Proof.Machine

/-! ### Decoding and encoding -/

/-- Words written out from the patterns of R98 decode to the instructions they stand for, and words R94 to R97 leave
without an entry to none. -/
def Obligations.SpecWordsDecode : Prop :=
  decodeWord 0x00E0 = some .cls ∧ decodeWord 0x00EE = some .ret ∧
  decodeWord 0x1228 = some (.jp 0x228) ∧ decodeWord 0x3A33 = some (.seImm 0xA 0x33) ∧
  decodeWord 0x523F = some (.seReg 0x2 0x3 0xF) ∧ decodeWord 0x7306 = some (.addImm 0x3 0x06) ∧
  decodeWord 0x812E = some (.shl 0x1 0x2) ∧ decodeWord 0xA210 = some (.ldI 0x210) ∧
  decodeWord 0xD014 = some (.drw 0x0 0x1 0x4) ∧ decodeWord 0xE49E = some (.skp 0x4) ∧
  decodeWord 0xF255 = some (.storeRegs 0x2) ∧
  decodeWord 0x0000 = none ∧ decodeWord 0x8128 = none ∧ decodeWord 0xE09F = none ∧ decodeWord 0xF0FF = none

/-- Decoding an encoded instruction gives it back, every operand at every value, from a word and from the head of any
bytes (R92, R98, R64). -/
def Obligations.DecodeOfEncode : Prop :=
  ∀ (i : Instr) (rest : List Byte),
    decodeWord (encode i) = some i ∧ decodeBytes (encodeBytes i ++ rest) = .ok (i, rest)

/-- Encoding a decoded word gives the word back: no bit of a valid word is lost in its instruction, ignored fields
(R100) included. -/
def Obligations.EncodeOfDecode : Prop :=
  ∀ (w : Word) (i : Instr), decodeWord w = some i → encode i = w

/-- `Decode(w)` is the unique row of the opcode map that the word matches, or none when it matches no row (R126). -/
def Obligations.DecodeFollowsOpcodeMap : Prop :=
  ∀ w : Word,
    (∀ i, decodeWord w = some i →
      i.row ∈ opcodeRows ∧ w &&& i.row.mask = i.row.pattern ∧
        ∀ r ∈ opcodeRows, w &&& r.mask = r.pattern → r = i.row) ∧
    (decodeWord w = none → ∀ r ∈ opcodeRows, w &&& r.mask ≠ r.pattern)

/-! ### The step -/

/-- When the bytes at `pc` decode to an instruction, the step is that instruction's meaning in the state after the timer
and flag phases (R120, R125, R127), for a given delta and policy and for the machine's own. -/
def Obligations.StepRunsDecodedInstruction : Prop :=
  ∀ (dt : NNRat) (policy : Policy) (s : State) (i : Instr),
    s.fault = none → s.wait = none → s.pc.toNat ≤ 0xFFE →
    decodeBytes [s.mem.read s.pc.toNat, s.mem.read (s.pc.toNat + 1)] = .ok (i, []) →
    stepWith dt policy s = exec i (s.beginStep dt) ∧
      step s = exec i (s.beginStep (Config.stepDelta s.stepIndex))

/-- `TimerAdvance(dt)` as R201 writes it: a tick when the accumulator reaches or exceeds 1/60 second. That the tone is a
flag, set in the tick that finds `ST = 1` (R202, R36), is the spec's decision D13. -/
def Obligations.TimerPhaseDecaysTimers : Prop :=
  ∀ (dt : NNRat) (s : State),
    s.timerAdvance dt =
      { s with
        acc := (s.timerAdvance dt).acc, DT := (s.timerAdvance dt).DT,
        ST := (s.timerAdvance dt).ST, tone := (s.timerAdvance dt).tone } ∧
    (1 / 60 ≤ s.acc + dt →
      (s.timerAdvance dt).acc = 0 ∧ (s.timerAdvance dt).DT.toNat = s.DT.toNat - 1 ∧
        (s.timerAdvance dt).ST.toNat = s.ST.toNat - 1 ∧
        ((s.timerAdvance dt).tone = true ↔ s.tone = true ∨ s.ST.toNat = 1)) ∧
    (s.acc + dt < 1 / 60 →
      (s.timerAdvance dt).acc = s.acc + dt ∧ (s.timerAdvance dt).DT = s.DT ∧
        (s.timerAdvance dt).ST = s.ST ∧ (s.timerAdvance dt).tone = s.tone)

/-- What a step does around its instruction: `tone` is cleared, the timer phase runs, then `draw` and `clear` are
cleared (R120, R122, R123); the tone of the step is the tick that found `ST = 1` (R202, which is the spec's decision
D13). That the model's own log output is cleared and its delta counter advanced is the model's choice, log entries 5
and 2. -/
def Obligations.StepBeginsWithTimersThenFlags : Prop :=
  ∀ (dt : NNRat) (s : State),
    s.beginStep dt =
      { s with
        acc := (s.timerAdvance dt).acc, DT := (s.timerAdvance dt).DT, ST := (s.timerAdvance dt).ST,
        tone := (s.beginStep dt).tone, draw := false, clear := false,
        log := none, stepIndex := s.stepIndex + 1 } ∧
    ((s.beginStep dt).tone = true ↔ 1 / 60 ≤ s.acc + dt ∧ s.ST.toNat = 1)

/-- One step takes at most one from each timer, however large its delta, and leaves the accumulator below 1/60 second
(R203, R28). -/
def Obligations.StepTicksAtMostOnce : Prop :=
  ∀ (dt : NNRat) (s : State), 0 ≤ s.acc →
    s.DT.toNat ≤ (s.beginStep dt).DT.toNat + 1 ∧ (s.beginStep dt).DT.toNat ≤ s.DT.toNat ∧
    s.ST.toNat ≤ (s.beginStep dt).ST.toNat + 1 ∧ (s.beginStep dt).ST.toNat ≤ s.ST.toNat ∧
    0 ≤ (s.beginStep dt).acc ∧ (s.beginStep dt).acc < 1 / 60

/-- A halted machine does not step: nothing changes, timers and flags included (R121, the spec's decision D9). -/
def Obligations.HaltedMachineIsInert : Prop :=
  ∀ (dt : NNRat) (policy : Policy) (s : State), s.fault ≠ none →
    stepWith dt policy s = .next s ∧ step s = .next s

/-- A step of a waiting machine fetches nothing: it completes the wait when a key-down event is latched, and else does
no more than its timer and flag phases (R124, R216, R218; the latch is the spec's decision D11, the place of the check
D12). -/
def Obligations.WaitingStepPolls : Prop :=
  ∀ (dt : NNRat) (policy : Policy) (s : State) (x : Nibble), s.fault = none → s.wait = some x →
    ∃ t, stepWith dt policy s = .next t ∧
      (s.keyEvent = true →
        t = { s.beginStep dt with V := t.V, keyEvent := false, wait := none, pc := s.pc + 2 } ∧
        (t.reg x).toNat = s.lastKey.toNat ∧ ∀ r, r ≠ x → t.reg r = s.reg r) ∧
      (s.keyEvent = false → t = s.beginStep dt)

/-- A fetch that would need an address above 0xFFF raises MemoryOutOfBounds and records `pc` and no opcode (R125, R253;
the record as state is the spec's decision D9). -/
def Obligations.FetchOutOfRangeFaults : Prop :=
  ∀ (dt : NNRat) (policy : Policy) (s : State), s.fault = none → s.wait = none → 0xFFF < s.pc.toNat + 1 →
    ∃ t, stepWith dt policy s = .next t ∧ t.fault = some ⟨.memoryOutOfBounds, s.pc, none⟩

/-- A fetched word that is no instruction: under policy halt a fault that records the word, under policy skip a log
event, `pc + 2` and nothing else besides the step's timer and flag phases (R255; the advance of 2 is the spec's decision
D7; the log event held in a field is log entry 5). -/
def Obligations.InvalidOpcodeHaltsOrSkips : Prop :=
  ∀ (dt : NNRat) (s : State), s.fault = none → s.wait = none → s.pc.toNat ≤ 0xFFE →
    decodeWord (s.mem.read s.pc.toNat ++ s.mem.read (s.pc.toNat + 1)) = none →
    (∃ t, stepWith dt .halt s = .next t ∧
      t.fault = some ⟨.invalidOpcode, s.pc, some (s.mem.read s.pc.toNat ++ s.mem.read (s.pc.toNat + 1))⟩) ∧
    stepWith dt .skip s = .next { s.beginStep dt with
      pc := s.pc + 2, log := some ⟨s.mem.read s.pc.toNat ++ s.mem.read (s.pc.toNat + 1), s.pc⟩ }

/-- No step of any state is refused or answers a fault outcome: every fault is a next state that records it (R252, R126,
D9). -/
def Obligations.StepAlwaysAnswersNext : Prop :=
  (∀ s : State, ∃ t, step s = .next t) ∧
  (∀ (dt : NNRat) (policy : Policy) (s : State), ∃ t, stepWith dt policy s = .next t)

/-- A program that has reached a jump to itself stays there: the step changes nothing but the accumulator, the timers and
the transient outputs (R131, R142). -/
def Obligations.JumpToSelfChangesOnlyTime : Prop :=
  ∀ (dt : NNRat) (policy : Policy) (s : State), s.fault = none → s.wait = none → s.pc.toNat ≤ 0xFFE →
    s.mem.read s.pc.toNat ++ s.mem.read (s.pc.toNat + 1) = (0x1000 ||| s.pc : Word) →
    stepWith dt policy s = .next (s.beginStep dt)

/-- "The only way a program learns about time is FX07" (R200): unless the fetched instruction is FX07, two steps from one
state with different deltas fault alike, and when they do not fault agree on everything but the accumulator, the timers
and the tone. -/
def Obligations.TimeIsSeenOnlyThroughFX07 : Prop :=
  ∀ (dt dt' : NNRat) (policy : Policy) (s t t' : State),
    (∀ x, decodeWord s.fetchWord ≠ some (.getDT x)) →
    stepWith dt policy s = .next t → stepWith dt' policy s = .next t' →
    t'.fault = t.fault ∧
      (t.fault = none → t' = { t with acc := t'.acc, DT := t'.DT, ST := t'.ST, tone := t'.tone })

/-! ### Control transfer -/

/-- 1NNN sets `pc` to the zero-extended field and changes nothing else (R142). -/
def Obligations.JumpSetsPc : Prop :=
  ∀ (nnn : Addr) (s : State), ∃ t, exec (.jp nnn) s = .next t ∧
    t = { s with pc := t.pc } ∧ t.pc.toNat = nnn.toNat

/-- BNNN sets `pc` to the field plus `V[0]`, not reduced to 12 bits, and changes nothing else (R148, D25). -/
def Obligations.IndexedJumpAddsV0 : Prop :=
  ∀ (nnn : Addr) (s : State), ∃ t, exec (.jpV0 nnn) s = .next t ∧
    t = { s with pc := t.pc } ∧ t.pc.toNat = nnn.toNat + (s.reg 0).toNat

/-- 2NNN below 16 frames pushes the address of the CALL itself and jumps (R143; which slot is written is the spec's
decision D4). -/
def Obligations.CallPushesItsAddress : Prop :=
  ∀ (nnn : Addr) (s : State), s.sp.val < 16 → ∃ t, exec (.call nnn) s = .next t ∧
    t = { s with stack := t.stack, sp := t.sp, pc := t.pc } ∧
    t.sp.val = s.sp.val + 1 ∧ t.pc.toNat = nnn.toNat ∧
    ∀ j : Fin 16, t.stack[j] = if j.val = s.sp.val then s.pc else s.stack[j]

/-- The seventeenth nested 2NNN raises StackOverflow and the failing call mutates nothing (R143; the record as state is
the spec's decision D9). -/
def Obligations.CallAtFullStackOnlyFaults : Prop :=
  ∀ (nnn : Addr) (s : State), s.sp.val = 16 →
    exec (.call nnn) s = .next { s with fault := some ⟨.stackOverflow, s.pc, some (encode (.call nnn))⟩ }

/-- 00EE with a frame in use pops it and continues after the CALL that pushed it (R141; the slot read is D4). -/
def Obligations.ReturnGoesPastItsCall : Prop :=
  ∀ s : State, 0 < s.sp.val → ∃ t ra, exec .ret s = .next t ∧
    t = { s with sp := t.sp, pc := ra + 2 } ∧ t.sp.val + 1 = s.sp.val ∧ s.stack[t.sp.val]? = some ra

/-- A CALL and then a RET give back the stack pointer and continue after the CALL; only the freed slot and `pc` differ
from before (R141, R143). -/
def Obligations.CallThenReturnRoundTrips : Prop :=
  ∀ (nnn : Addr) (s : State), s.sp.val < 16 → ∃ t u, exec (.call nnn) s = .next t ∧ exec .ret t = .next u ∧
    u = { s with stack := u.stack, pc := s.pc + 2 } ∧
    ∀ j : Fin 16, j.val ≠ s.sp.val → u.stack[j] = s.stack[j]

/-- 3XNN and 4XNN compare `V[x]` with the immediate and write `pc` alone (R144, R145). -/
def Obligations.SkipsOnImmediate : Prop :=
  ∀ (x : Nibble) (nn : Byte) (s : State),
    exec (.seImm x nn) s = .next { s with pc := if s.reg x = nn then s.pc + 4 else s.pc + 2 } ∧
    exec (.sneImm x nn) s = .next { s with pc := if s.reg x ≠ nn then s.pc + 4 else s.pc + 2 }

/-- 5XYn and 9XYn compare `V[x]` with `V[y]` and write `pc` alone, whatever `n` is (R146, R147; that `n` is ignored is
the spec's decision D16). -/
def Obligations.SkipsOnRegisters : Prop :=
  ∀ (x y n : Nibble) (s : State),
    exec (.seReg x y n) s = .next { s with pc := if s.reg x = s.reg y then s.pc + 4 else s.pc + 2 } ∧
    exec (.sneReg x y n) s = .next { s with pc := if s.reg x ≠ s.reg y then s.pc + 4 else s.pc + 2 }

/-! ### Immediates and random -/

/-- 6XNN writes the immediate to `V[x]`, 0xF included, and changes nothing else but `pc` (R160). -/
def Obligations.LoadImmediateWritesRegister : Prop :=
  ∀ (x : Nibble) (nn : Byte) (s : State), CompletesWithReg (.ldImm x nn) s x nn

/-- 7XNN adds modulo 256 and writes no flag: every register but `V[x]` is unchanged (R161). -/
def Obligations.AddImmediateWrapsWithoutFlag : Prop :=
  ∀ (x : Nibble) (nn : Byte) (s : State), ∃ v : Byte,
    v.toNat = ((s.reg x).toNat + nn.toNat) % 256 ∧ CompletesWithReg (.addImm x nn) s x v

/-- ANNN writes the zero-extended field to `I` and changes nothing else but `pc` (R162). -/
def Obligations.LoadIndexWritesI : Prop :=
  ∀ (nnn : Addr) (s : State), ∃ t, exec (.ldI nnn) s = .next t ∧
    t = { s with I := t.I, pc := s.pc + 2 } ∧ t.I.toNat = nnn.toNat

/-- CXNN writes a fresh free byte masked by the immediate, every bit that is 0 in `nn` being 0 (R163). The byte is the
model's free value of log entry 1, about which nothing is known; the draw counter is the model's own. -/
def Obligations.RandomIsMaskedFreeByte : Prop :=
  ∀ (x : Nibble) (nn : Byte) (s : State), ∃ t, exec (.rnd x nn) s = .next t ∧
    t = { s with V := t.V, pc := s.pc + 2, drawIndex := s.drawIndex + 1 } ∧
    t.reg x = Config.randomByte s.drawIndex &&& nn ∧ t.reg x &&& ~~~nn = 0 ∧
    ∀ r, r ≠ x → t.reg r = s.reg r

/-! ### ALU -/

/-- 8XY0 to 8XY3 copy, or, and, exclusive or, and write no flag: every register but `V[x]` is unchanged (R173 to
R176). -/
def Obligations.CopyAndLogicWriteNoFlag : Prop :=
  ∀ (x y : Nibble) (s : State),
    CompletesWithReg (.ldReg x y) s x (s.reg y) ∧
    CompletesWithReg (.orReg x y) s x (s.reg x ||| s.reg y) ∧
    CompletesWithReg (.andReg x y) s x (s.reg x &&& s.reg y) ∧
    CompletesWithReg (.xorReg x y) s x (s.reg x ^^^ s.reg y)

/-- 8XY4 adds modulo 256 with the carry in VF, for every `x` and `y` (R177, R170); with `x = 0xF` VF holds the carry
(R171, the spec's decision D15). -/
def Obligations.AddSetsCarry : Prop :=
  ∀ (x y : Nibble) (s : State), ∃ v f : Byte,
    v.toNat = ((s.reg x).toNat + (s.reg y).toNat) % 256 ∧
    f.toNat = (if 255 < (s.reg x).toNat + (s.reg y).toNat then 1 else 0) ∧
    CompletesWithFlag (.addReg x y) s x v f

/-- 8XY5 and 8XY7 subtract modulo 256, VF = 1 when there was no borrow, for every `x` and `y` (R178, R180, R172); with
`x = 0xF` VF holds the flag (R171, the spec's decision D15). -/
def Obligations.SubtractSetsNoBorrow : Prop :=
  ∀ (x y : Nibble) (s : State),
    (∃ v f : Byte,
      (v.toNat : Int) = ((s.reg x).toNat - (s.reg y).toNat : Int) % 256 ∧
      f.toNat = (if (s.reg y).toNat ≤ (s.reg x).toNat then 1 else 0) ∧
      CompletesWithFlag (.subReg x y) s x v f) ∧
    (∃ v f : Byte,
      (v.toNat : Int) = ((s.reg y).toNat - (s.reg x).toNat : Int) % 256 ∧
      f.toNat = (if (s.reg x).toNat ≤ (s.reg y).toNat then 1 else 0) ∧
      CompletesWithFlag (.subnReg x y) s x v f)

/-- 8XY6 and 8XYE shift `V[x]` by one and put the bit shifted out in VF, whatever `y` is (R179, R181; that `y` is ignored
is D17); with `x = 0xF` VF holds that bit (R171, the spec's decision D15). -/
def Obligations.ShiftsPutBitInVF : Prop :=
  ∀ (x y : Nibble) (s : State),
    (∃ v f : Byte, v.toNat = (s.reg x).toNat / 2 ∧ f.toNat = (s.reg x).toNat % 2 ∧
      CompletesWithFlag (.shr x y) s x v f) ∧
    (∃ v f : Byte, v.toNat = (s.reg x).toNat * 2 % 256 ∧ f.toNat = (s.reg x).toNat / 128 ∧
      CompletesWithFlag (.shl x y) s x v f)

/-! ### Display -/

/-- 00E0 turns every pixel OFF and sets `clear`; nothing else changes but `pc`: `draw` and VF are left alone (R191). -/
def Obligations.ClearScreenTurnsAllOff : Prop :=
  ∀ s : State, ∃ t, exec .cls s = .next t ∧
    t = { s with fb := t.fb, clear := true, pc := s.pc + 2 } ∧ ∀ j, t.fb.getLsbD j = false

/-- DXYN, its bytes in range, toggles exactly the pixels inside the frame that the sprite covers, sets VF to whether one
of them was ON, sets `draw`, and changes no other register and nothing else but `pc` (R192 to R194; the details of the
range check, the origin and `draw` are the spec's decision D19). -/
def Obligations.DrawTogglesCoveredPixels : Prop :=
  ∀ (x y n : Nibble) (s : State), (n.toNat = 0 ∨ s.I.toNat + n.toNat - 1 ≤ 0xFFF) →
    ∃ t, exec (.drw x y n) s = .next t ∧
      t = { s with V := t.V, fb := t.fb, draw := true, pc := s.pc + 2 } ∧
      (∀ r, r ≠ 0xF → t.reg r = s.reg r) ∧
      (∀ px < 64, ∀ py < 32,
        (s.spriteCovers x y n px py → t.fb.getLsbD (py * 64 + px) = !s.fb.getLsbD (py * 64 + px)) ∧
        (¬s.spriteCovers x y n px py → t.fb.getLsbD (py * 64 + px) = s.fb.getLsbD (py * 64 + px))) ∧
      ((∃ px < 64, ∃ py < 32, s.spriteCovers x y n px py ∧ s.fb.getLsbD (py * 64 + px) = true) →
        t.reg 0xF = 1) ∧
      (¬(∃ px < 64, ∃ py < 32, s.spriteCovers x y n px py ∧ s.fb.getLsbD (py * 64 + px) = true) →
        t.reg 0xF = 0)

/-- Drawing the same sprite twice at the same coordinates restores the framebuffer, and the second draw collides exactly
when the first turned a pixel ON (R195). -/
def Obligations.DrawTwiceRestoresScreen : Prop :=
  ∀ (x y n : Nibble) (s : State), (n.toNat = 0 ∨ s.I.toNat + n.toNat - 1 ≤ 0xFFF) →
    ∃ t u, exec (.drw x y n) s = .next t ∧ exec (.drw x y n) t = .next u ∧
      (t.reg x = s.reg x → t.reg y = s.reg y →
        u.fb = s.fb ∧
        (u.reg 0xF = 1 ↔ ∃ px < 64, ∃ py < 32,
          s.fb.getLsbD (py * 64 + px) = false ∧ t.fb.getLsbD (py * 64 + px) = true))

/-- GET_PIXEL gives the pixel inside the frame and is refused outside it (R196, the spec's decision D30). -/
def Obligations.GetPixelReadsFrame : Prop :=
  ∀ (s : State) (x y : Nat),
    (x < 64 → y < 32 → s.getPixel x y = .ok (s.fb.getLsbD (y * 64 + x))) ∧
    (64 ≤ x ∨ 32 ≤ y → s.getPixel x y = .error .pixelOutsideInterface)

/-! ### Timers -/

/-- FX07 reads the delay timer, FX15 and FX18 set the timers, and nothing else changes but `pc`: the accumulator and the
tone are left alone (R204 to R206). -/
def Obligations.TimerInstructionsMoveBytes : Prop :=
  ∀ (x : Nibble) (s : State),
    CompletesWithReg (.getDT x) s x s.DT ∧
    exec (.setDT x) s = .next { s with DT := s.reg x, pc := s.pc + 2 } ∧
    exec (.setST x) s = .next { s with ST := s.reg x, pc := s.pc + 2 }

/-! ### Keypad -/

/-- EX9E and EXA1 test the level of the key whose number is the value `V[x]`, and write `pc` alone (R213, R214; the key
tested is the spec's decision D18). -/
def Obligations.KeySkipsTestLevel : Prop :=
  ∀ (x : Nibble) (s : State) (h : (s.reg x).toNat < 16),
    exec (.skp x) s =
      .next { s with pc := if s.keys[(s.reg x).toNat] = .down then s.pc + 4 else s.pc + 2 } ∧
    exec (.sknp x) s =
      .next { s with pc := if s.keys[(s.reg x).toNat] = .up then s.pc + 4 else s.pc + 2 }

/-- FX0A enters the key-wait and clears the latch; `pc` and everything else stay (R215, the spec's decision D11). -/
def Obligations.WaitKeyEntersWait : Prop :=
  ∀ (x : Nibble) (s : State), exec (.waitKey x) s = .next { s with wait := some x, keyEvent := false }

/-- Only a SET_KEY that is a key-down event, followed by a step, ends a wait (R219). From every waiting state with no
event latched, a step alone goes on waiting, whatever time passes, and so does a step after a key-up or after a
key-down of a key already DOWN (R211, R216, R218); a step after an UP to DOWN completes the wait with that key and
writes no other register (R216). And from FX0A on: whatever keys are held, the wait is entered with no event latched,
outlives a step, and ends at the step after a new key-down (R215). The latch is the spec's decision D11, SET_KEY
without a change its decision D23. -/
def Obligations.OnlyNewKeyDownEndsWait : Prop :=
  (∀ (dt : NNRat) (policy : Policy) (x k : Nibble) (s : State),
    s.fault = none → s.wait = some x → s.keyEvent = false →
    stepWith dt policy s = .next (s.beginStep dt) ∧
    (∀ st, st = .up ∨ s.key k = .down → ∃ t, stepWith dt policy (s.setKey k st) = .next t ∧
      t.wait = some x ∧ t.keyEvent = false ∧ t.pc = s.pc ∧ ∀ r, t.reg r = s.reg r) ∧
    (s.key k = .up → ∃ t, stepWith dt policy (s.setKey k .down) = .next t ∧
      t.wait = none ∧ t.keyEvent = false ∧ t.pc = s.pc + 2 ∧ (t.reg x).toNat = k.toNat ∧
      ∀ r, r ≠ x → t.reg r = s.reg r)) ∧
  (∀ (dt dt' : NNRat) (policy : Policy) (x k : Nibble) (s : State), s.fault = none → s.key k = .up →
    ∃ t u v, exec (.waitKey x) s = .next t ∧ t.keyEvent = false ∧ stepWith dt policy t = .next u ∧
      u.wait = some x ∧ u.pc = s.pc ∧ (∀ r, u.reg r = s.reg r) ∧
      stepWith dt' policy (u.setKey k .down) = .next v ∧
      v.wait = none ∧ v.keyEvent = false ∧ v.pc = s.pc + 2 ∧ (v.reg x).toNat = k.toNat)

/-- SET_KEY acts on a real transition alone: a key-down counts, is remembered and sets the latch, a key-up uncounts; key
numbers outside 0..15 are refused, for GET_KEY too (R211, R212; the spec's decisions D23, D30). -/
def Obligations.SetKeyActsOnTransitions : Prop :=
  ∀ (s : State) (k : Nat) (st : KeyState),
    (16 ≤ k → s.setKeyNumber k st = .refused .keyOutsideInterface ∧ s.getKey k = .error .keyOutsideInterface) ∧
    (∀ h : k < 16,
      s.getKey k = .ok s.keys[k] ∧
      (s.keys[k] = st → s.setKeyNumber k st = .next s) ∧
      (s.keys[k] = .up → st = .down → s.setKeyNumber k st =
        .next { s with
          keys := s.keys.set k .down, pressedCount := s.pressedCount + 1,
          lastKey := BitVec.ofNat 4 k, keyEvent := true }) ∧
      (s.keys[k] = .down → st = .up → s.setKeyNumber k st =
        .next { s with keys := s.keys.set k .up, pressedCount := s.pressedCount - 1 }))

/-- No step that does not fault writes the keypad: keys, their count and the last key change by SET_KEY alone (R29,
R43). -/
def Obligations.StepLeavesKeypadAlone : Prop :=
  ∀ (dt : NNRat) (policy : Policy) (s t : State), stepWith dt policy s = .next t →
    t.fault = none → t.keys = s.keys ∧ t.pressedCount = s.pressedCount ∧ t.lastKey = s.lastKey

/-! ### Index and memory -/

/-- FX1E within the address space adds `V[x]` to `I`, VF not written, and nothing else changes but `pc` (R230; the range
check is the spec's decision D10). -/
def Obligations.AddIndexWithinSpace : Prop :=
  ∀ (x : Nibble) (s : State), s.I.toNat + (s.reg x).toNat ≤ 0xFFF →
    ∃ t, exec (.addI x) s = .next t ∧ t = { s with I := t.I, pc := s.pc + 2 } ∧
      t.I.toNat = s.I.toNat + (s.reg x).toNat

/-- FX29 points `I` at `0x050 + 5 * V[x]` for every value of `V[x]`, and nothing else changes but `pc` (R231; that the
value is not masked is the spec's decision D20). -/
def Obligations.FontLookupScalesByFive : Prop :=
  ∀ (x : Nibble) (s : State), ∃ t, exec (.ldFont x) s = .next t ∧
    t = { s with I := t.I, pc := s.pc + 2 } ∧ t.I.toNat = 0x050 + 5 * (s.reg x).toNat

/-- FX33 in range stores the three decimal digits of `V[x]` at `I` to `I + 2`, leaves every other byte of memory as it
was, and changes nothing else but `pc` (R232; `I` unchanged is D21). -/
def Obligations.BcdStoresThreeDigits : Prop :=
  ∀ (x : Nibble) (s : State), s.mem.wf → s.I.toNat + 2 ≤ 0xFFF →
    ∃ t, exec (.storeBcd x) s = .next t ∧ t = { s with mem := t.mem, pc := s.pc + 2 } ∧
      (t.mem.read s.I.toNat).toNat = (s.reg x).toNat / 100 ∧
      (t.mem.read (s.I.toNat + 1)).toNat = (s.reg x).toNat / 10 % 10 ∧
      (t.mem.read (s.I.toNat + 2)).toNat = (s.reg x).toNat % 10 ∧
      ∀ a, a < s.I.toNat ∨ s.I.toNat + 2 < a → t.mem.read a = s.mem.read a

/-- FX55 in range stores `V[0]` to `V[x]` at `I` and on, leaves every other byte of memory as it was, and changes nothing
else but `pc` (R233; `I` unchanged is D21). -/
def Obligations.StoreRegistersWritesBlock : Prop :=
  ∀ (x : Nibble) (s : State), s.mem.wf → s.I.toNat + x.toNat ≤ 0xFFF →
    ∃ t, exec (.storeRegs x) s = .next t ∧ t = { s with mem := t.mem, pc := s.pc + 2 } ∧
      (∀ r : Nibble, r.toNat ≤ x.toNat → t.mem.read (s.I.toNat + r.toNat) = s.reg r) ∧
      ∀ a, a < s.I.toNat ∨ s.I.toNat + x.toNat < a → t.mem.read a = s.mem.read a

/-- FX65 in range loads `V[0]` to `V[x]` from memory at `I` and on, leaves the registers above `x` as they were, and
changes nothing else but `pc` (R234; `I` unchanged is D21). -/
def Obligations.LoadRegistersReadsBlock : Prop :=
  ∀ (x : Nibble) (s : State), s.I.toNat + x.toNat ≤ 0xFFF →
    ∃ t, exec (.loadRegs x) s = .next t ∧ t = { s with V := t.V, pc := s.pc + 2 } ∧
      ∀ r, t.reg r = if r.toNat ≤ x.toNat then s.mem.read (s.I.toNat + r.toNat) else s.reg r

/-- A byte stored by FX55 over the next instruction word is the byte the next fetch sees, with nothing in between (R73,
R233). -/
def Obligations.NextFetchSeesStore : Prop :=
  ∀ (x : Nibble) (s : State) (j : Nat), s.mem.wf → s.I.toNat + x.toNat ≤ 0xFFF → j + 1 ≤ x.toNat →
    s.pc.toNat + 2 = s.I.toNat + j →
    ∃ t, exec (.storeRegs x) s = .next t ∧
      t.fetchWord = s.reg (BitVec.ofNat 4 j) ++ s.reg (BitVec.ofNat 4 (j + 1))

/-- Reset memory and the loaded image: every byte is 0x00 but the font copy and the image (R281). -/
def Obligations.MemoryAtReset : Prop :=
  ∀ image : List Byte, image.length ≤ 3584 → ∃ s, State.load image = .next s ∧
    ∀ a < 4096,
      (∀ j : Fin 80, a = 0x050 + j.val → s.mem.read a = Config.fontRom[j]) ∧
      (∀ h : 0x200 ≤ a ∧ a < 0x200 + image.length, s.mem.read a = image[a - 0x200]'(by omega)) ∧
      (a < 0x050 ∨ (0x0A0 ≤ a ∧ a < 0x200) ∨ 0x200 + image.length ≤ a → s.mem.read a = 0)

/-- Everything but memory at reset (R40; keys UP and the other defaults are the spec's decision D28; the last three
fields are the model's own, log entries 1, 2 and 5), and no machine from an image that is too long (R283). -/
def Obligations.StateAtReset : Prop :=
  ∀ image : List Byte,
    (image.length ≤ 3584 → ∃ s, State.load image = .next s ∧
      (∀ r, s.reg r = 0) ∧ s.I = 0 ∧ s.pc = 0x200 ∧ (∀ j : Fin 16, s.stack[j] = 0) ∧ s.sp = 0 ∧
      s.DT = 0 ∧ s.ST = 0 ∧ s.acc = 0 ∧ (∀ k, s.key k = .up) ∧ s.pressedCount = 0 ∧ s.lastKey = 0 ∧
      s.keyEvent = false ∧ s.wait = none ∧ (∀ j, s.fb.getLsbD j = false) ∧
      s.draw = false ∧ s.clear = false ∧ s.tone = false ∧ s.fault = none ∧
      s.drawIndex = 0 ∧ s.stepIndex = 0 ∧ s.log = none) ∧
    (3584 < image.length → State.load image = .fault .loadFailure)

/-- RESET of any machine, halted ones too, gives what the same RESET gives a new machine, nothing of the earlier run
surviving (R280), or LoadFailure and no machine (R283). That the model's two counters go on is the model's choice, log
entries 1 and 2: no byte drawn before is drawn again (R164). -/
def Obligations.ResetOfAnyMachineStartsAfresh : Prop :=
  ∀ (policy : Policy) (s : State) (image : List Byte),
    (image.length ≤ 3584 → ∃ t, State.load image = .next t ∧
      transact policy (.reset image) s = .next { t with drawIndex := s.drawIndex, stepIndex := s.stepIndex }) ∧
    (3584 < image.length → transact policy (.reset image) s = .fault .loadFailure)

/-- Two canonical memories that read the same at every address are equal data. -/
def Obligations.EqualReadsEqualMemory : Prop :=
  ∀ m m' : Memory, m.wf → m'.wf → (∀ a, m.read a = m'.read a) → m = m'

/-! ### Whole-machine rules -/

/-- Each instruction, in every state, faults exactly under its condition in the table of R254, with the record of R253:
the kind, its own `pc` and its own word; else the fault field is left alone (D9, D10, D18, D24 are the spec's
decisions). -/
def Obligations.FaultsExactlyWhereTheTableSays : Prop :=
  ∀ (i : Instr) (s : State), ∃ t, exec i s = .next t ∧
    (∀ k, i.faultOf s = some k → t.fault = some ⟨k, s.pc, some (encode i)⟩) ∧
    (i.faultOf s = none → t.fault = s.fault)

/-- Each instruction whose result is specified leaves every register alone but those the access matrix lets it write
(R43, R22). -/
def Obligations.RegistersWrittenOnlyAsNamed : Prop :=
  ∀ (i : Instr) (s t : State) (r : Nibble), i.leavesSpecified s → exec i s = .next t → i.writesReg r = false →
    t.reg r = s.reg r

/-- Memory is written by FX33 and FX55 alone, and by them at `I` and on: every other byte reads as before (R43). -/
def Obligations.MemoryWrittenOnlyByStores : Prop :=
  ∀ (i : Instr) (s t : State) (a : Nat), s.mem.wf → i.leavesSpecified s → exec i s = .next t →
    a < s.I.toNat ∨ s.I.toNat + i.storedBytes ≤ a → t.mem.read a = s.mem.read a

/-- The special state is written by the instructions the access matrix names and by no other (R43). -/
def Obligations.SpecialStateWrittenOnlyAsNamed : Prop :=
  ∀ (i : Instr) (s t : State), i.leavesSpecified s → exec i s = .next t →
    ((∀ nnn, i ≠ .ldI nnn) → (∀ x, i ≠ .addI x) → (∀ x, i ≠ .ldFont x) → t.I = s.I) ∧
    ((∀ nnn, i ≠ .call nnn) → t.stack = s.stack) ∧
    ((∀ nnn, i ≠ .call nnn) → i ≠ .ret → t.sp = s.sp) ∧
    ((∀ x, i ≠ .setDT x) → t.DT = s.DT) ∧
    ((∀ x, i ≠ .setST x) → t.ST = s.ST) ∧
    ((∀ x, i ≠ .waitKey x) → t.wait = s.wait ∧ t.keyEvent = s.keyEvent) ∧
    ((∀ x y n, i ≠ .drw x y n) → t.draw = s.draw ∧ (i ≠ .cls → t.fb = s.fb)) ∧
    (i ≠ .cls → t.clear = s.clear) ∧
    t.acc = s.acc ∧ t.tone = s.tone ∧ t.keys = s.keys ∧ t.pressedCount = s.pressedCount ∧ t.lastKey = s.lastKey

/-- An instruction that completes writes `pc` with one of the five forms of R25: `pc + 2`, `pc + 4`, `nnn`,
`nnn + V[0]`, a popped slot plus 2; FX0A and a faulting CALL leave it. -/
def Obligations.PcMovesInOneOfFiveForms : Prop :=
  ∀ (i : Instr) (s t : State), i.leavesSpecified s → exec i s = .next t →
    t.pc = s.pc + 2 ∨ t.pc = s.pc + 4 ∨
    (∃ nnn : Addr, (i = .jp nnn ∨ i = .call nnn) ∧ t.pc.toNat = nnn.toNat) ∨
    (∃ nnn : Addr, i = .jpV0 nnn ∧ t.pc.toNat = nnn.toNat + (s.reg 0).toNat) ∨
    (∃ ra, i = .ret ∧ s.stack[t.sp.val]? = some ra ∧ t.pc = ra + 2) ∨
    (t.pc = s.pc ∧ ((∃ x, i = .waitKey x) ∨ i.faultOf s = some .stackOverflow))

/-! ### Invariants -/

/-- The reset state has every invariant (R40). -/
def Obligations.ResetHasInvariants : Prop := State.reset.Inv

/-- Every step keeps the invariants, from every state that has them, reached or not (R23, R25, R28, R29, R253). That a
fault leaves everything but its record alone, so that a halted state has them too, is the spec's decision D8. -/
def Obligations.StepKeepsInvariants : Prop :=
  ∀ s t : State, s.Inv → step s = .next t → t.Inv

/-- SET_KEY keeps the invariants; in particular the count stays the number of keys DOWN (R29, R211, D23). -/
def Obligations.SetKeyKeepsInvariants : Prop :=
  ∀ (s : State) (k : Nibble) (st : KeyState), s.Inv → (s.setKey k st).Inv

/-- Every state that any interleaving of transactions reaches, from any image, under either policy and with any deltas
and keys, has every invariant: `I <= 0xFFF`, `pc <= 0x10FE`, the accumulator below 1/60 second among them (R23, R25,
R28, R29). For a halted state it rests on the spec's decision D8, as above. -/
def Obligations.ReachableStatesHaveInvariants : Prop :=
  ∀ (policy : Policy) (s : State), Reachable policy s → s.Inv
end

