-- ==== Sys2Proof/Laws/Decode.lean ====
section
/-! SUPPORT. The fields of a packed word, and a word put together again from its fields. -/

namespace Sys2Proof

/-! ### The bits of a packed word -/

theorem getLsbD_packNNN (f : Nibble) (a : Addr) (j : Nat) :
    (packNNN f a).getLsbD j = if j < 12 then a.getLsbD j else f.getLsbD (j - 12) :=
  BitVec.getLsbD_append

theorem getLsbD_packXNN (f x : Nibble) (v : Byte) (j : Nat) :
    (packXNN f x v).getLsbD j =
      if j < 8 then v.getLsbD j else if j < 12 then x.getLsbD (j - 8) else f.getLsbD (j - 12) := by
  have h : (packXNN f x v).getLsbD j = if j < 8 then v.getLsbD j else (f ++ x).getLsbD (j - 8) :=
    BitVec.getLsbD_append
  rw [h, BitVec.getLsbD_append]
  split_ifs <;> first | rfl | omega

theorem getLsbD_packXYN (f x y n : Nibble) (j : Nat) :
    (packXYN f x y n).getLsbD j =
      if j < 4 then n.getLsbD j else if j < 8 then y.getLsbD (j - 4)
      else if j < 12 then x.getLsbD (j - 8) else f.getLsbD (j - 12) := by
  have h : (packXYN f x y n).getLsbD j = if j < 4 then n.getLsbD j else (f ++ x ++ y).getLsbD (j - 4) :=
    BitVec.getLsbD_append
  rw [h, BitVec.getLsbD_append, BitVec.getLsbD_append]
  split_ifs <;> first | rfl | omega

/-! ### The fields of a packed word -/

@[simp] theorem famOf_packNNN (f : Nibble) (a : Addr) : famOf (packNNN f a) = f := by
  refine BitVec.eq_of_getLsbD_eq fun j hj => ?_
  simp only [famOf, BitVec.getLsbD_extractLsb', getLsbD_packNNN, hj, decide_true, Bool.true_and]
  split_ifs <;> first | omega | (congr 1; omega)

@[simp] theorem nnnOf_packNNN (f : Nibble) (a : Addr) : nnnOf (packNNN f a) = a := by
  refine BitVec.eq_of_getLsbD_eq fun j hj => ?_
  simp only [nnnOf, BitVec.getLsbD_extractLsb', getLsbD_packNNN, hj, decide_true, Bool.true_and]
  split_ifs <;> first | omega | (congr 1; omega)

@[simp] theorem famOf_packXNN (f x : Nibble) (v : Byte) : famOf (packXNN f x v) = f := by
  refine BitVec.eq_of_getLsbD_eq fun j hj => ?_
  simp only [famOf, BitVec.getLsbD_extractLsb', getLsbD_packXNN, hj, decide_true, Bool.true_and]
  split_ifs <;> first | omega | (congr 1; omega)

@[simp] theorem xOf_packXNN (f x : Nibble) (v : Byte) : xOf (packXNN f x v) = x := by
  refine BitVec.eq_of_getLsbD_eq fun j hj => ?_
  simp only [xOf, BitVec.getLsbD_extractLsb', getLsbD_packXNN, hj, decide_true, Bool.true_and]
  split_ifs <;> first | omega | (congr 1; omega)

@[simp] theorem nnOf_packXNN (f x : Nibble) (v : Byte) : nnOf (packXNN f x v) = v := by
  refine BitVec.eq_of_getLsbD_eq fun j hj => ?_
  simp only [nnOf, BitVec.getLsbD_extractLsb', getLsbD_packXNN, hj, decide_true, Bool.true_and]
  split_ifs <;> first | omega | (congr 1; omega)

@[simp] theorem famOf_packXYN (f x y n : Nibble) : famOf (packXYN f x y n) = f := by
  refine BitVec.eq_of_getLsbD_eq fun j hj => ?_
  simp only [famOf, BitVec.getLsbD_extractLsb', getLsbD_packXYN, hj, decide_true, Bool.true_and]
  split_ifs <;> first | omega | (congr 1; omega)

@[simp] theorem xOf_packXYN (f x y n : Nibble) : xOf (packXYN f x y n) = x := by
  refine BitVec.eq_of_getLsbD_eq fun j hj => ?_
  simp only [xOf, BitVec.getLsbD_extractLsb', getLsbD_packXYN, hj, decide_true, Bool.true_and]
  split_ifs <;> first | omega | (congr 1; omega)

@[simp] theorem yOf_packXYN (f x y n : Nibble) : yOf (packXYN f x y n) = y := by
  refine BitVec.eq_of_getLsbD_eq fun j hj => ?_
  simp only [yOf, BitVec.getLsbD_extractLsb', getLsbD_packXYN, hj, decide_true, Bool.true_and]
  split_ifs <;> first | omega | (congr 1; omega)

@[simp] theorem nOf_packXYN (f x y n : Nibble) : nOf (packXYN f x y n) = n := by
  refine BitVec.eq_of_getLsbD_eq fun j hj => ?_
  simp only [nOf, BitVec.getLsbD_extractLsb', getLsbD_packXYN, hj, decide_true, Bool.true_and]
  split_ifs <;> first | omega | (congr 1; omega)

/-! ### A word from its fields -/

theorem packNNN_fields (w : Word) : packNNN (famOf w) (nnnOf w) = w := by
  refine BitVec.eq_of_getLsbD_eq fun j hj => ?_
  rw [getLsbD_packNNN]
  split_ifs with h
  · simp [nnnOf, h]
  · simp only [famOf, BitVec.getLsbD_extractLsb', show j - 12 < 4 by omega]
    simp [show 12 + (j - 12) = j by omega]

theorem packXNN_fields (w : Word) : packXNN (famOf w) (xOf w) (nnOf w) = w := by
  refine BitVec.eq_of_getLsbD_eq fun j hj => ?_
  rw [getLsbD_packXNN]
  split_ifs with h h'
  · simp [nnOf, h]
  · simp [xOf, show j - 8 < 4 by omega, show 8 + (j - 8) = j by omega]
  · simp [famOf, show j - 12 < 4 by omega, show 12 + (j - 12) = j by omega]

theorem packXYN_fields (w : Word) : packXYN (famOf w) (xOf w) (yOf w) (nOf w) = w := by
  refine BitVec.eq_of_getLsbD_eq fun j hj => ?_
  rw [getLsbD_packXYN]
  split_ifs with h h' h''
  · simp [nOf, h]
  · simp [yOf, show j - 4 < 4 by omega, show 4 + (j - 4) = j by omega]
  · simp [xOf, show j - 8 < 4 by omega, show 8 + (j - 8) = j by omega]
  · simp [famOf, show j - 12 < 4 by omega, show 12 + (j - 12) = j by omega]

/-- The two bytes a word is stored as give the word back (R64). -/
@[simp] theorem wordOfBytes_bytes (w : Word) : wordOfBytes (hiByte w) (loByte w) = w := by
  refine BitVec.eq_of_getLsbD_eq fun j hj => ?_
  have h : (wordOfBytes (hiByte w) (loByte w)).getLsbD j =
      if j < 8 then (loByte w).getLsbD j else (hiByte w).getLsbD (j - 8) := BitVec.getLsbD_append
  rw [h]
  split_ifs with h'
  · simp [loByte, h']
  · simp [hiByte, show j - 8 < 8 by omega, show 8 + (j - 8) = j by omega]

end Sys2Proof
end

