-- ==== Sys2Proof/Laws/Display.lean ====
section
/-! SUPPORT. What the sprite engine does to each pixel and to the collision flag (`44_display.md` R192 to R194). -/

namespace Sys2Proof.Machine

theorem inFrame_iff (px py : Nat) : inFrame px py = true ↔ px < 64 ∧ py < 32 := by
  rw [inFrame, Bool.and_eq_true, decide_eq_true_iff, decide_eq_true_iff]

theorem pixelIndex_lt {px py : Nat} (h : inFrame px py = true) : pixelIndex px py < 2048 := by
  rw [inFrame_iff] at h
  simp only [pixelIndex, Config.fbWidth]
  omega

/-- Inside the frame, an index belongs to one pixel (R190). -/
theorem pixelIndex_inj {px py qx qy : Nat} (h : inFrame px py = true) (h' : inFrame qx qy = true) :
    pixelIndex px py = pixelIndex qx qy ↔ px = qx ∧ py = qy := by
  rw [inFrame_iff] at h h'
  simp only [pixelIndex, Config.fbWidth]
  omega

/-- Plotting toggles its own pixel, if inside the frame, and no other. -/
theorem plot_pixel (p : BitVec 2048 × Bool) {px py qx qy : Nat} (hq : inFrame qx qy = true) :
    (plot p px py).1.getLsbD (pixelIndex qx qy)
      = (p.1.getLsbD (pixelIndex qx qy) ^^ decide (px = qx ∧ py = qy)) := by
  unfold plot
  by_cases h : inFrame px py = true
  · rw [if_pos h]
    have h1 := pixelIndex_lt hq
    have h2 := pixelIndex_inj h hq
    simp only [BitVec.getLsbD_xor, BitVec.getLsbD_shiftLeft, h1, decide_true, Bool.true_and, BitVec.getLsbD_one]
    congr 1
    by_cases he : pixelIndex px py = pixelIndex qx qy
    · simp [h2.1 he]
    · have hn : ¬(px = qx ∧ py = qy) := fun hh => he (h2.2 hh)
      rw [decide_eq_false hn]
      rcases Nat.lt_or_ge (pixelIndex qx qy) (pixelIndex px py) with hl | hl
      · simp [hl]
      · simp [show pixelIndex qx qy - pixelIndex px py ≠ 0 by omega]
  · rw [if_neg h]
    have hn : ¬(px = qx ∧ py = qy) := by
      rintro ⟨rfl, rfl⟩
      exact h hq
    simp [hn]

/-- Plotting collides when its own pixel is inside the frame and was ON. -/
theorem plot_collision (p : BitVec 2048 × Bool) (px py : Nat) :
    (plot p px py).2 = (p.2 || (inFrame px py && p.1.getLsbD (pixelIndex px py))) := by
  unfold plot
  by_cases h : inFrame px py = true <;> simp [h]

/-- The columns of a row, `k` of them: each pixel inside the frame is toggled when the row covers it. -/
theorem columns_pixel (p : BitVec 2048 × Bool) (x0 py : Nat) (b : Byte) (k : Nat) {qx qy : Nat}
    (hq : inFrame qx qy = true) :
    ((List.range k).foldl (fun q col => if b.getLsbD (7 - col) then plot q (x0 + col) py else q) p).1.getLsbD
        (pixelIndex qx qy)
      = (p.1.getLsbD (pixelIndex qx qy) ^^
          decide (py = qy ∧ x0 ≤ qx ∧ qx < x0 + k ∧ b.getLsbD (7 - (qx - x0)) = true)) := by
  induction k with
  | zero =>
    rw [decide_eq_false (by omega)]
    simp
  | succ k ih =>
    rw [List.range_succ, List.foldl_append, List.foldl_cons, List.foldl_nil]
    by_cases hb : b.getLsbD (7 - k) = true
    · rw [if_pos hb, plot_pixel _ hq, ih, Bool.xor_assoc]
      congr 1
      by_cases hx : x0 + k = qx
      · subst hx
        by_cases hy : py = qy <;> simp [hy, hb]
      · have h1 : ¬(x0 + k = qx ∧ py = qy) := fun h => hx h.1
        rw [decide_eq_false h1, Bool.xor_false, decide_eq_decide]
        constructor
        · rintro ⟨a, b', c, d⟩; exact ⟨a, b', by omega, d⟩
        · rintro ⟨a, b', c, d⟩; exact ⟨a, b', by omega, d⟩
    · rw [if_neg hb, ih]
      congr 1
      rw [decide_eq_decide]
      constructor
      · rintro ⟨a, b', c, d⟩; exact ⟨a, b', by omega, d⟩
      · rintro ⟨a, b', c, d⟩
        refine ⟨a, b', ?_, d⟩
        by_contra hc
        have : qx - x0 = k := by omega
        rw [this] at d
        exact hb d

/-- The columns of a row collide when they cover a pixel inside the frame that was ON: the columns of a row never
overlap. -/
theorem columns_collision (p : BitVec 2048 × Bool) (x0 py : Nat) (b : Byte) (k : Nat) :
    ((List.range k).foldl (fun q col => if b.getLsbD (7 - col) then plot q (x0 + col) py else q) p).2 = true ↔
      p.2 = true ∨ ∃ col < k, b.getLsbD (7 - col) = true ∧ inFrame (x0 + col) py = true ∧
        p.1.getLsbD (pixelIndex (x0 + col) py) = true := by
  induction k with
  | zero => simp
  | succ k ih =>
    rw [List.range_succ, List.foldl_append, List.foldl_cons, List.foldl_nil]
    have hlast : (∃ col < k + 1, b.getLsbD (7 - col) = true ∧ inFrame (x0 + col) py = true ∧
        p.1.getLsbD (pixelIndex (x0 + col) py) = true) ↔
        (∃ col < k, b.getLsbD (7 - col) = true ∧ inFrame (x0 + col) py = true ∧
          p.1.getLsbD (pixelIndex (x0 + col) py) = true) ∨
        (b.getLsbD (7 - k) = true ∧ inFrame (x0 + k) py = true ∧ p.1.getLsbD (pixelIndex (x0 + k) py) = true) := by
      constructor
      · rintro ⟨col, hc, h⟩
        rcases Nat.lt_succ_iff_lt_or_eq.1 hc with hc | rfl
        · exact .inl ⟨col, hc, h⟩
        · exact .inr h
      · rintro (⟨col, hc, h⟩ | h)
        · exact ⟨col, by omega, h⟩
        · exact ⟨k, by omega, h⟩
    rw [hlast, ← or_assoc, ← ih]
    by_cases hb : b.getLsbD (7 - k) = true
    · rw [if_pos hb, plot_collision, Bool.or_eq_true, Bool.and_eq_true]
      by_cases hf : inFrame (x0 + k) py = true
      · rw [columns_pixel _ _ _ _ _ hf, decide_eq_false (by omega), Bool.xor_false]
        simp only [hb, true_and]
      · simp [hf]
    · rw [if_neg hb]
      simp [hb]

/-- The sprite covers a pixel: a row `r` and a column `col` with a 1 bit fall on it (R192). -/
def covers (x0 y0 : Nat) (rows : List Byte) (px py : Nat) : Prop :=
  ∃ r, ∃ h : r < rows.length, ∃ col < 8, px = x0 + col ∧ py = y0 + r ∧ rows[r].getLsbD (7 - col) = true

theorem covers_nil (x0 y0 px py : Nat) : ¬covers x0 y0 [] px py := by
  rintro ⟨r, h, -⟩
  simp at h

/-- A sprite covers what its first row covers and what its other rows, one lower, cover. -/
theorem covers_cons (x0 y0 : Nat) (b : Byte) (bs : List Byte) (px py : Nat) :
    covers x0 y0 (b :: bs) px py ↔
      (y0 = py ∧ x0 ≤ px ∧ px < x0 + 8 ∧ b.getLsbD (7 - (px - x0)) = true) ∨ covers x0 (y0 + 1) bs px py := by
  constructor
  · rintro ⟨r, hr, col, hc, rfl, rfl, hb⟩
    cases r with
    | zero => exact .inl ⟨rfl, by omega, by omega, by simpa using hb⟩
    | succ r =>
      exact .inr ⟨r, by simpa using hr, col, hc, rfl, by omega, by simpa using hb⟩
  · rintro (⟨rfl, h1, h2, hb⟩ | ⟨r, hr, col, hc, rfl, rfl, hb⟩)
    · exact ⟨0, by simp, px - x0, by omega, by omega, rfl, by simpa using hb⟩
    · exact ⟨r + 1, by simpa using hr, col, hc, rfl, by omega, by simpa using hb⟩

/-- The rows below a row do not cover it. -/
theorem covers_below {x0 y0 : Nat} {rows : List Byte} {px py : Nat} (h : covers x0 y0 rows px py) : y0 ≤ py := by
  obtain ⟨r, -, col, -, -, rfl, -⟩ := h
  omega

/-- What a blit does to a pixel: toggled when the sprite covers it, else left alone (R192, R193). -/
theorem blit_pixel (p : BitVec 2048 × Bool) (x0 y0 : Nat) (rows : List Byte) {px py : Nat}
    (hq : inFrame px py = true) :
    (covers x0 y0 rows px py →
        (blit p x0 y0 rows).1.getLsbD (pixelIndex px py) = !p.1.getLsbD (pixelIndex px py)) ∧
      (¬covers x0 y0 rows px py →
        (blit p x0 y0 rows).1.getLsbD (pixelIndex px py) = p.1.getLsbD (pixelIndex px py)) := by
  induction rows generalizing p y0 with
  | nil => exact ⟨fun h => (covers_nil _ _ _ _ h).elim, fun _ => rfl⟩
  | cons b bs ih =>
    rw [blit, covers_cons]
    have hrow := columns_pixel p x0 y0 b 8 hq
    rw [← blitRow] at hrow
    by_cases h1 : y0 = py ∧ x0 ≤ px ∧ px < x0 + 8 ∧ b.getLsbD (7 - (px - x0)) = true
    · have h2 : ¬covers x0 (y0 + 1) bs px py := fun h => by
        have := covers_below h
        omega
      rw [decide_eq_true h1, Bool.xor_true] at hrow
      exact ⟨fun _ => (ih _ _).2 h2 |>.trans hrow, fun h => absurd (.inl h1) h⟩
    · rw [decide_eq_false h1, Bool.xor_false] at hrow
      rw [← hrow]
      exact ⟨fun h => (ih _ _).1 (h.resolve_left h1), fun h => (ih _ _).2 fun h' => h (.inr h')⟩

/-- When a blit collides: some pixel inside the frame that the sprite covers was ON (R194). -/
theorem blit_collision (p : BitVec 2048 × Bool) (x0 y0 : Nat) (rows : List Byte) :
    (blit p x0 y0 rows).2 = true ↔
      p.2 = true ∨ ∃ px py, inFrame px py = true ∧ covers x0 y0 rows px py ∧
        p.1.getLsbD (pixelIndex px py) = true := by
  induction rows generalizing p y0 with
  | nil => simp [blit, covers_nil]
  | cons b bs ih =>
    rw [blit, ih, blitRow, columns_collision, or_assoc]
    apply or_congr_right
    constructor
    · rintro (⟨col, hc, hb, hf, hp⟩ | ⟨px, py, hf, hcov, hp⟩)
      · exact ⟨x0 + col, y0, hf, (covers_cons ..).2 (.inl ⟨rfl, by omega, by omega, by simpa using hb⟩), hp⟩
      · rw [columns_pixel p x0 y0 b 8 hf] at hp
        have := covers_below hcov
        rw [decide_eq_false (by omega), Bool.xor_false] at hp
        exact ⟨px, py, hf, (covers_cons ..).2 (.inr hcov), hp⟩
    · rintro ⟨px, py, hf, hcov, hp⟩
      rcases (covers_cons ..).1 hcov with ⟨rfl, h1, h2, hb⟩ | hcov
      · exact .inl ⟨px - x0, by omega, hb, by rwa [show x0 + (px - x0) = px by omega],
          by rwa [show x0 + (px - x0) = px by omega]⟩
      · refine .inr ⟨px, py, hf, hcov, ?_⟩
        have := covers_below hcov
        rw [columns_pixel p x0 y0 b 8 hf, decide_eq_false (by omega), Bool.xor_false]
        exact hp

/-- Two framebuffers with the same pixels are equal. -/
theorem fb_ext {f g : BitVec 2048}
    (h : ∀ px py, inFrame px py = true → f.getLsbD (pixelIndex px py) = g.getLsbD (pixelIndex px py)) : f = g := by
  refine BitVec.eq_of_getLsbD_eq fun j hj => ?_
  have := h (j % 64) (j / 64) ((inFrame_iff ..).2 ⟨by omega, by omega⟩)
  simpa only [pixelIndex, Config.fbWidth, show j / 64 * 64 + j % 64 = j by omega] using this

end Sys2Proof.Machine
end

