-- ==== Sys2Proof/Laws/Memory.lean ====
section
/-! SUPPORT. Memory: a read after a write, and every memory operation keeps the canonical form. -/

namespace Sys2Proof.Machine

/-! ### Lists of cells -/

theorem Memory.mem_insert {a : Nat} {v : Byte} {l : List Host.Cell} {c : Host.Cell}
    (h : c ∈ Memory.insert a v l) : c = (a, v) ∨ c ∈ l := by
  induction l with
  | nil => simpa [Memory.insert] using h
  | cons d l ih =>
    obtain ⟨b, u⟩ := d
    simp only [Memory.insert] at h
    split_ifs at h <;> simp only [List.mem_cons] at h ⊢ <;> tauto

theorem Memory.mem_erase {a : Nat} {l : List Host.Cell} {c : Host.Cell}
    (h : c ∈ Memory.erase a l) : c ∈ l := by
  induction l with
  | nil => simp [Memory.erase] at h
  | cons d l ih =>
    obtain ⟨b, u⟩ := d
    simp only [Memory.erase] at h
    split_ifs at h <;> simp only [List.mem_cons] at h ⊢ <;> tauto

theorem Memory.insert_sorted {a : Nat} {v : Byte} {l : List Host.Cell}
    (h : l.Pairwise fun c d => c.1 < d.1) : (Memory.insert a v l).Pairwise fun c d => c.1 < d.1 := by
  induction l with
  | nil => simp [Memory.insert]
  | cons d l ih =>
    obtain ⟨b, u⟩ := d
    rw [List.pairwise_cons] at h
    simp only [Memory.insert]
    split_ifs with h1 h2
    · refine List.pairwise_cons.2 ⟨fun c hc => ?_, List.pairwise_cons.2 h⟩
      rcases List.mem_cons.1 hc with rfl | hc
      · exact h1
      · exact h1.trans (h.1 c hc)
    · subst h2
      exact List.pairwise_cons.2 h
    · refine List.pairwise_cons.2 ⟨fun c hc => ?_, ih h.2⟩
      rcases Memory.mem_insert hc with rfl | hc
      · simp only; omega
      · exact h.1 c hc

theorem Memory.erase_sorted {a : Nat} {l : List Host.Cell}
    (h : l.Pairwise fun c d => c.1 < d.1) : (Memory.erase a l).Pairwise fun c d => c.1 < d.1 := by
  induction l with
  | nil => simp [Memory.erase]
  | cons d l ih =>
    obtain ⟨b, u⟩ := d
    rw [List.pairwise_cons] at h
    simp only [Memory.erase]
    split_ifs
    · exact h.2
    · exact List.pairwise_cons.2 ⟨fun c hc => h.1 c (Memory.mem_erase hc), ih h.2⟩

theorem Memory.find_insert (a b : Nat) (v : Byte) (l : List Host.Cell) :
    Memory.find b (Memory.insert a v l) = if b = a then some v else Memory.find b l := by
  induction l with
  | nil => simp [Memory.insert, Memory.find]
  | cons d l ih =>
    obtain ⟨e, u⟩ := d
    simp only [Memory.insert]
    split_ifs <;> simp_all [Memory.find]

/-- Addresses before the first listed one are not listed. -/
theorem Memory.find_none_of_lt {a : Nat} {l : List Host.Cell} (h : ∀ c ∈ l, a < c.1) :
    Memory.find a l = none := by
  induction l with
  | nil => rfl
  | cons d l ih =>
    obtain ⟨b, u⟩ := d
    have hb := h (b, u) (by simp)
    simp only at hb
    simp only [Memory.find, if_neg (Nat.ne_of_lt hb)]
    exact ih fun c hc => h c (by simp [hc])

theorem Memory.find_erase {a b : Nat} {l : List Host.Cell} (h : l.Pairwise fun c d => c.1 < d.1) :
    Memory.find b (Memory.erase a l) = if b = a then none else Memory.find b l := by
  induction l with
  | nil => simp [Memory.erase, Memory.find]
  | cons d l ih =>
    obtain ⟨e, u⟩ := d
    rw [List.pairwise_cons] at h
    simp only [Memory.erase]
    by_cases hae : a = e
    · subst hae
      by_cases hb : b = a
      · subst hb; simp [Memory.find_none_of_lt (fun c hc => h.1 c hc)]
      · simp [hb, Memory.find]
    · by_cases hb : b = e
      · subst hb; simp [hae, Memory.find, Ne.symm hae]
      · simp [hae, hb, Memory.find, ih h.2]

/-! ### Reads and writes -/

/-- A read after a write inside the space: the byte written at that address, what was there before at any other. -/
theorem Memory.read_write {m : Memory} (hm : m.wf) {a : Nat} (ha : a < Config.memSize) (b : Nat) (v : Byte) :
    (m.write a v).read b = if b = a then v else m.read b := by
  unfold Memory.write Memory.read
  rw [if_pos ha]
  by_cases hv : v = Memory.blank a
  · simp only [if_pos hv, Memory.find_erase hm.1]
    split_ifs with hb
    · subst hb; simp [hv]
    · rfl
  · simp only [if_neg hv, Memory.find_insert]
    split_ifs <;> rfl

/-- A write leaves every other address alone, whatever its own address. -/
theorem Memory.read_write_of_ne {m : Memory} (hm : m.wf) {a b : Nat} (hb : b ≠ a) (v : Byte) :
    (m.write a v).read b = m.read b := by
  by_cases ha : a < Config.memSize
  · rw [Memory.read_write hm ha, if_neg hb]
  · simp [Memory.write, ha]

/-- A write keeps the canonical form. -/
theorem Memory.write_wf {m : Memory} (hm : m.wf) (a : Nat) (v : Byte) : (m.write a v).wf := by
  unfold Memory.write
  split_ifs with ha hv
  · exact ⟨Memory.erase_sorted hm.1, fun c hc => hm.2 c (Memory.mem_erase hc)⟩
  · refine ⟨Memory.insert_sorted hm.1, fun c hc => ?_⟩
    rcases Memory.mem_insert hc with rfl | hc
    · exact ⟨ha, hv⟩
    · exact hm.2 c hc
  · exact hm

/-- Writing bytes keeps the canonical form. -/
theorem Memory.writeBytes_wf {m : Memory} (hm : m.wf) (a : Nat) (l : List Byte) : (m.writeBytes a l).wf := by
  induction l generalizing m a with
  | nil => exact hm
  | cons v l ih => exact ih (Memory.write_wf hm a v) (a + 1)

/-- Reading after writing bytes, in a range inside the space: the written byte inside the range, the old one outside. -/
theorem Memory.read_writeBytes {m : Memory} (hm : m.wf) {a : Nat} {l : List Byte}
    (ha : a + l.length ≤ Config.memSize) (b : Nat) :
    (m.writeBytes a l).read b = if h : a ≤ b ∧ b < a + l.length then l[b - a]'(by omega) else m.read b := by
  induction l generalizing m a with
  | nil =>
    rw [dif_neg (by simp)]
    rfl
  | cons v l ih =>
    simp only [List.length_cons] at ha
    simp only [Memory.writeBytes]
    rw [ih (Memory.write_wf hm a v) (by omega), Memory.read_write hm (by omega)]
    by_cases h0 : b = a
    · subst h0
      simp
    · by_cases h1 : a ≤ b ∧ b < a + (l.length + 1)
      · have h2 : b - a = (b - (a + 1)) + 1 := by omega
        rw [dif_pos ⟨by omega, by omega⟩, dif_pos ⟨h1.1, by simpa using h1.2⟩]
        simp [h2]
      · rw [dif_neg (by omega), dif_neg (by simpa using h1), if_neg h0]

/-- Writing bytes leaves every address outside their range alone. -/
theorem Memory.read_writeBytes_outside {m : Memory} (hm : m.wf) {a b : Nat} {l : List Byte}
    (hb : b < a ∨ a + l.length ≤ b) : (m.writeBytes a l).read b = m.read b := by
  induction l generalizing m a with
  | nil => rfl
  | cons v l ih =>
    simp only [List.length_cons] at hb
    rw [Memory.writeBytes, ih (Memory.write_wf hm a v) (by omega), Memory.read_write_of_ne hm (by omega)]

/-- The bytes a block read gives. -/
@[simp] theorem Memory.readBytes_length (m : Memory) (a k : Nat) : (m.readBytes a k).length = k := by
  simp [Memory.readBytes]

@[simp] theorem Memory.readBytes_getElem (m : Memory) (a k j : Nat) (h : j < (m.readBytes a k).length) :
    (m.readBytes a k)[j] = m.read (a + j) := by
  simp [Memory.readBytes]

/-- Empty memory is canonical. -/
theorem Memory.empty_wf : Memory.wf ⟨[]⟩ := by simp [Memory.wf]

end Sys2Proof.Machine
end

