-- ==== Sys2Proof/Laws/State.lean ====
section
/-! SUPPORT. One lemma per field per named update of the state, each true by unfolding the update once, so that no later
proof unfolds a record update. -/

namespace Sys2Proof.Machine

variable (s : State) (x : Nibble) (v : Byte) (t : Word) (c : Bool) (k : FaultKind) (o : Option Word) (dt : NNRat)
  (rc : Byte × Bool)

/-! `setReg` -/

@[simp] theorem State.setReg_mem : (s.setReg x v).mem = s.mem := rfl
@[simp] theorem State.setReg_V : (s.setReg x v).V = s.V.set x.toNat v x.isLt := rfl
@[simp] theorem State.setReg_I : (s.setReg x v).I = s.I := rfl
@[simp] theorem State.setReg_pc : (s.setReg x v).pc = s.pc := rfl
@[simp] theorem State.setReg_stack : (s.setReg x v).stack = s.stack := rfl
@[simp] theorem State.setReg_sp : (s.setReg x v).sp = s.sp := rfl
@[simp] theorem State.setReg_DT : (s.setReg x v).DT = s.DT := rfl
@[simp] theorem State.setReg_ST : (s.setReg x v).ST = s.ST := rfl
@[simp] theorem State.setReg_acc : (s.setReg x v).acc = s.acc := rfl
@[simp] theorem State.setReg_keys : (s.setReg x v).keys = s.keys := rfl
@[simp] theorem State.setReg_pressedCount : (s.setReg x v).pressedCount = s.pressedCount := rfl
@[simp] theorem State.setReg_lastKey : (s.setReg x v).lastKey = s.lastKey := rfl
@[simp] theorem State.setReg_keyEvent : (s.setReg x v).keyEvent = s.keyEvent := rfl
@[simp] theorem State.setReg_wait : (s.setReg x v).wait = s.wait := rfl
@[simp] theorem State.setReg_fb : (s.setReg x v).fb = s.fb := rfl
@[simp] theorem State.setReg_draw : (s.setReg x v).draw = s.draw := rfl
@[simp] theorem State.setReg_clear : (s.setReg x v).clear = s.clear := rfl
@[simp] theorem State.setReg_tone : (s.setReg x v).tone = s.tone := rfl
@[simp] theorem State.setReg_fault : (s.setReg x v).fault = s.fault := rfl
@[simp] theorem State.setReg_drawIndex : (s.setReg x v).drawIndex = s.drawIndex := rfl
@[simp] theorem State.setReg_stepIndex : (s.setReg x v).stepIndex = s.stepIndex := rfl
@[simp] theorem State.setReg_log : (s.setReg x v).log = s.log := rfl

/-! `setI` -/

@[simp] theorem State.setI_mem : (s.setI t).mem = s.mem := rfl
@[simp] theorem State.setI_V : (s.setI t).V = s.V := rfl
@[simp] theorem State.setI_I : (s.setI t).I = t := rfl
@[simp] theorem State.setI_pc : (s.setI t).pc = s.pc := rfl
@[simp] theorem State.setI_stack : (s.setI t).stack = s.stack := rfl
@[simp] theorem State.setI_sp : (s.setI t).sp = s.sp := rfl
@[simp] theorem State.setI_DT : (s.setI t).DT = s.DT := rfl
@[simp] theorem State.setI_ST : (s.setI t).ST = s.ST := rfl
@[simp] theorem State.setI_acc : (s.setI t).acc = s.acc := rfl
@[simp] theorem State.setI_keys : (s.setI t).keys = s.keys := rfl
@[simp] theorem State.setI_pressedCount : (s.setI t).pressedCount = s.pressedCount := rfl
@[simp] theorem State.setI_lastKey : (s.setI t).lastKey = s.lastKey := rfl
@[simp] theorem State.setI_keyEvent : (s.setI t).keyEvent = s.keyEvent := rfl
@[simp] theorem State.setI_wait : (s.setI t).wait = s.wait := rfl
@[simp] theorem State.setI_fb : (s.setI t).fb = s.fb := rfl
@[simp] theorem State.setI_draw : (s.setI t).draw = s.draw := rfl
@[simp] theorem State.setI_clear : (s.setI t).clear = s.clear := rfl
@[simp] theorem State.setI_tone : (s.setI t).tone = s.tone := rfl
@[simp] theorem State.setI_fault : (s.setI t).fault = s.fault := rfl
@[simp] theorem State.setI_drawIndex : (s.setI t).drawIndex = s.drawIndex := rfl
@[simp] theorem State.setI_stepIndex : (s.setI t).stepIndex = s.stepIndex := rfl
@[simp] theorem State.setI_log : (s.setI t).log = s.log := rfl

/-! `setPc` -/

@[simp] theorem State.setPc_mem : (s.setPc t).mem = s.mem := rfl
@[simp] theorem State.setPc_V : (s.setPc t).V = s.V := rfl
@[simp] theorem State.setPc_I : (s.setPc t).I = s.I := rfl
@[simp] theorem State.setPc_pc : (s.setPc t).pc = t := rfl
@[simp] theorem State.setPc_stack : (s.setPc t).stack = s.stack := rfl
@[simp] theorem State.setPc_sp : (s.setPc t).sp = s.sp := rfl
@[simp] theorem State.setPc_DT : (s.setPc t).DT = s.DT := rfl
@[simp] theorem State.setPc_ST : (s.setPc t).ST = s.ST := rfl
@[simp] theorem State.setPc_acc : (s.setPc t).acc = s.acc := rfl
@[simp] theorem State.setPc_keys : (s.setPc t).keys = s.keys := rfl
@[simp] theorem State.setPc_pressedCount : (s.setPc t).pressedCount = s.pressedCount := rfl
@[simp] theorem State.setPc_lastKey : (s.setPc t).lastKey = s.lastKey := rfl
@[simp] theorem State.setPc_keyEvent : (s.setPc t).keyEvent = s.keyEvent := rfl
@[simp] theorem State.setPc_wait : (s.setPc t).wait = s.wait := rfl
@[simp] theorem State.setPc_fb : (s.setPc t).fb = s.fb := rfl
@[simp] theorem State.setPc_draw : (s.setPc t).draw = s.draw := rfl
@[simp] theorem State.setPc_clear : (s.setPc t).clear = s.clear := rfl
@[simp] theorem State.setPc_tone : (s.setPc t).tone = s.tone := rfl
@[simp] theorem State.setPc_fault : (s.setPc t).fault = s.fault := rfl
@[simp] theorem State.setPc_drawIndex : (s.setPc t).drawIndex = s.drawIndex := rfl
@[simp] theorem State.setPc_stepIndex : (s.setPc t).stepIndex = s.stepIndex := rfl
@[simp] theorem State.setPc_log : (s.setPc t).log = s.log := rfl

/-! `advance` -/

@[simp] theorem State.advance_mem : (s.advance).mem = s.mem := rfl
@[simp] theorem State.advance_V : (s.advance).V = s.V := rfl
@[simp] theorem State.advance_I : (s.advance).I = s.I := rfl
@[simp] theorem State.advance_pc : (s.advance).pc = s.pc + 2 := rfl
@[simp] theorem State.advance_stack : (s.advance).stack = s.stack := rfl
@[simp] theorem State.advance_sp : (s.advance).sp = s.sp := rfl
@[simp] theorem State.advance_DT : (s.advance).DT = s.DT := rfl
@[simp] theorem State.advance_ST : (s.advance).ST = s.ST := rfl
@[simp] theorem State.advance_acc : (s.advance).acc = s.acc := rfl
@[simp] theorem State.advance_keys : (s.advance).keys = s.keys := rfl
@[simp] theorem State.advance_pressedCount : (s.advance).pressedCount = s.pressedCount := rfl
@[simp] theorem State.advance_lastKey : (s.advance).lastKey = s.lastKey := rfl
@[simp] theorem State.advance_keyEvent : (s.advance).keyEvent = s.keyEvent := rfl
@[simp] theorem State.advance_wait : (s.advance).wait = s.wait := rfl
@[simp] theorem State.advance_fb : (s.advance).fb = s.fb := rfl
@[simp] theorem State.advance_draw : (s.advance).draw = s.draw := rfl
@[simp] theorem State.advance_clear : (s.advance).clear = s.clear := rfl
@[simp] theorem State.advance_tone : (s.advance).tone = s.tone := rfl
@[simp] theorem State.advance_fault : (s.advance).fault = s.fault := rfl
@[simp] theorem State.advance_drawIndex : (s.advance).drawIndex = s.drawIndex := rfl
@[simp] theorem State.advance_stepIndex : (s.advance).stepIndex = s.stepIndex := rfl
@[simp] theorem State.advance_log : (s.advance).log = s.log := rfl

/-! `skipWhen` -/

@[simp] theorem State.skipWhen_mem : (s.skipWhen c).mem = s.mem := rfl
@[simp] theorem State.skipWhen_V : (s.skipWhen c).V = s.V := rfl
@[simp] theorem State.skipWhen_I : (s.skipWhen c).I = s.I := rfl
@[simp] theorem State.skipWhen_pc : (s.skipWhen c).pc = if c then s.pc + 4 else s.pc + 2 := rfl
@[simp] theorem State.skipWhen_stack : (s.skipWhen c).stack = s.stack := rfl
@[simp] theorem State.skipWhen_sp : (s.skipWhen c).sp = s.sp := rfl
@[simp] theorem State.skipWhen_DT : (s.skipWhen c).DT = s.DT := rfl
@[simp] theorem State.skipWhen_ST : (s.skipWhen c).ST = s.ST := rfl
@[simp] theorem State.skipWhen_acc : (s.skipWhen c).acc = s.acc := rfl
@[simp] theorem State.skipWhen_keys : (s.skipWhen c).keys = s.keys := rfl
@[simp] theorem State.skipWhen_pressedCount : (s.skipWhen c).pressedCount = s.pressedCount := rfl
@[simp] theorem State.skipWhen_lastKey : (s.skipWhen c).lastKey = s.lastKey := rfl
@[simp] theorem State.skipWhen_keyEvent : (s.skipWhen c).keyEvent = s.keyEvent := rfl
@[simp] theorem State.skipWhen_wait : (s.skipWhen c).wait = s.wait := rfl
@[simp] theorem State.skipWhen_fb : (s.skipWhen c).fb = s.fb := rfl
@[simp] theorem State.skipWhen_draw : (s.skipWhen c).draw = s.draw := rfl
@[simp] theorem State.skipWhen_clear : (s.skipWhen c).clear = s.clear := rfl
@[simp] theorem State.skipWhen_tone : (s.skipWhen c).tone = s.tone := rfl
@[simp] theorem State.skipWhen_fault : (s.skipWhen c).fault = s.fault := rfl
@[simp] theorem State.skipWhen_drawIndex : (s.skipWhen c).drawIndex = s.drawIndex := rfl
@[simp] theorem State.skipWhen_stepIndex : (s.skipWhen c).stepIndex = s.stepIndex := rfl
@[simp] theorem State.skipWhen_log : (s.skipWhen c).log = s.log := rfl

/-! `raise` -/

@[simp] theorem State.raise_mem : (s.raise k o).mem = s.mem := rfl
@[simp] theorem State.raise_V : (s.raise k o).V = s.V := rfl
@[simp] theorem State.raise_I : (s.raise k o).I = s.I := rfl
@[simp] theorem State.raise_pc : (s.raise k o).pc = s.pc := rfl
@[simp] theorem State.raise_stack : (s.raise k o).stack = s.stack := rfl
@[simp] theorem State.raise_sp : (s.raise k o).sp = s.sp := rfl
@[simp] theorem State.raise_DT : (s.raise k o).DT = s.DT := rfl
@[simp] theorem State.raise_ST : (s.raise k o).ST = s.ST := rfl
@[simp] theorem State.raise_acc : (s.raise k o).acc = s.acc := rfl
@[simp] theorem State.raise_keys : (s.raise k o).keys = s.keys := rfl
@[simp] theorem State.raise_pressedCount : (s.raise k o).pressedCount = s.pressedCount := rfl
@[simp] theorem State.raise_lastKey : (s.raise k o).lastKey = s.lastKey := rfl
@[simp] theorem State.raise_keyEvent : (s.raise k o).keyEvent = s.keyEvent := rfl
@[simp] theorem State.raise_wait : (s.raise k o).wait = s.wait := rfl
@[simp] theorem State.raise_fb : (s.raise k o).fb = s.fb := rfl
@[simp] theorem State.raise_draw : (s.raise k o).draw = s.draw := rfl
@[simp] theorem State.raise_clear : (s.raise k o).clear = s.clear := rfl
@[simp] theorem State.raise_tone : (s.raise k o).tone = s.tone := rfl
@[simp] theorem State.raise_fault : (s.raise k o).fault = some ⟨k, s.pc, o⟩ := rfl
@[simp] theorem State.raise_drawIndex : (s.raise k o).drawIndex = s.drawIndex := rfl
@[simp] theorem State.raise_stepIndex : (s.raise k o).stepIndex = s.stepIndex := rfl
@[simp] theorem State.raise_log : (s.raise k o).log = s.log := rfl

/-! `setFlag` -/

@[simp] theorem State.setFlag_mem : (s.setFlag c).mem = s.mem := rfl
@[simp] theorem State.setFlag_I : (s.setFlag c).I = s.I := rfl
@[simp] theorem State.setFlag_pc : (s.setFlag c).pc = s.pc := rfl
@[simp] theorem State.setFlag_stack : (s.setFlag c).stack = s.stack := rfl
@[simp] theorem State.setFlag_sp : (s.setFlag c).sp = s.sp := rfl
@[simp] theorem State.setFlag_DT : (s.setFlag c).DT = s.DT := rfl
@[simp] theorem State.setFlag_ST : (s.setFlag c).ST = s.ST := rfl
@[simp] theorem State.setFlag_acc : (s.setFlag c).acc = s.acc := rfl
@[simp] theorem State.setFlag_keys : (s.setFlag c).keys = s.keys := rfl
@[simp] theorem State.setFlag_pressedCount : (s.setFlag c).pressedCount = s.pressedCount := rfl
@[simp] theorem State.setFlag_lastKey : (s.setFlag c).lastKey = s.lastKey := rfl
@[simp] theorem State.setFlag_keyEvent : (s.setFlag c).keyEvent = s.keyEvent := rfl
@[simp] theorem State.setFlag_wait : (s.setFlag c).wait = s.wait := rfl
@[simp] theorem State.setFlag_fb : (s.setFlag c).fb = s.fb := rfl
@[simp] theorem State.setFlag_draw : (s.setFlag c).draw = s.draw := rfl
@[simp] theorem State.setFlag_clear : (s.setFlag c).clear = s.clear := rfl
@[simp] theorem State.setFlag_tone : (s.setFlag c).tone = s.tone := rfl
@[simp] theorem State.setFlag_fault : (s.setFlag c).fault = s.fault := rfl
@[simp] theorem State.setFlag_drawIndex : (s.setFlag c).drawIndex = s.drawIndex := rfl
@[simp] theorem State.setFlag_stepIndex : (s.setFlag c).stepIndex = s.stepIndex := rfl
@[simp] theorem State.setFlag_log : (s.setFlag c).log = s.log := rfl

/-! `setResult` -/

@[simp] theorem State.setResult_mem : (s.setResult x rc).mem = s.mem := rfl
@[simp] theorem State.setResult_I : (s.setResult x rc).I = s.I := rfl
@[simp] theorem State.setResult_pc : (s.setResult x rc).pc = s.pc := rfl
@[simp] theorem State.setResult_stack : (s.setResult x rc).stack = s.stack := rfl
@[simp] theorem State.setResult_sp : (s.setResult x rc).sp = s.sp := rfl
@[simp] theorem State.setResult_DT : (s.setResult x rc).DT = s.DT := rfl
@[simp] theorem State.setResult_ST : (s.setResult x rc).ST = s.ST := rfl
@[simp] theorem State.setResult_acc : (s.setResult x rc).acc = s.acc := rfl
@[simp] theorem State.setResult_keys : (s.setResult x rc).keys = s.keys := rfl
@[simp] theorem State.setResult_pressedCount : (s.setResult x rc).pressedCount = s.pressedCount := rfl
@[simp] theorem State.setResult_lastKey : (s.setResult x rc).lastKey = s.lastKey := rfl
@[simp] theorem State.setResult_keyEvent : (s.setResult x rc).keyEvent = s.keyEvent := rfl
@[simp] theorem State.setResult_wait : (s.setResult x rc).wait = s.wait := rfl
@[simp] theorem State.setResult_fb : (s.setResult x rc).fb = s.fb := rfl
@[simp] theorem State.setResult_draw : (s.setResult x rc).draw = s.draw := rfl
@[simp] theorem State.setResult_clear : (s.setResult x rc).clear = s.clear := rfl
@[simp] theorem State.setResult_tone : (s.setResult x rc).tone = s.tone := rfl
@[simp] theorem State.setResult_fault : (s.setResult x rc).fault = s.fault := rfl
@[simp] theorem State.setResult_drawIndex : (s.setResult x rc).drawIndex = s.drawIndex := rfl
@[simp] theorem State.setResult_stepIndex : (s.setResult x rc).stepIndex = s.stepIndex := rfl
@[simp] theorem State.setResult_log : (s.setResult x rc).log = s.log := rfl

/-! `beginStep` -/

@[simp] theorem State.beginStep_mem : (s.beginStep dt).mem = s.mem := rfl
@[simp] theorem State.beginStep_V : (s.beginStep dt).V = s.V := rfl
@[simp] theorem State.beginStep_I : (s.beginStep dt).I = s.I := rfl
@[simp] theorem State.beginStep_pc : (s.beginStep dt).pc = s.pc := rfl
@[simp] theorem State.beginStep_stack : (s.beginStep dt).stack = s.stack := rfl
@[simp] theorem State.beginStep_sp : (s.beginStep dt).sp = s.sp := rfl
@[simp] theorem State.beginStep_DT : (s.beginStep dt).DT = if s.ticks dt then countDown s.DT else s.DT := rfl
@[simp] theorem State.beginStep_ST : (s.beginStep dt).ST = if s.ticks dt then countDown s.ST else s.ST := rfl
@[simp] theorem State.beginStep_acc : (s.beginStep dt).acc = if s.ticks dt then 0 else s.acc + (dt : Rat) := rfl
@[simp] theorem State.beginStep_keys : (s.beginStep dt).keys = s.keys := rfl
@[simp] theorem State.beginStep_pressedCount : (s.beginStep dt).pressedCount = s.pressedCount := rfl
@[simp] theorem State.beginStep_lastKey : (s.beginStep dt).lastKey = s.lastKey := rfl
@[simp] theorem State.beginStep_keyEvent : (s.beginStep dt).keyEvent = s.keyEvent := rfl
@[simp] theorem State.beginStep_wait : (s.beginStep dt).wait = s.wait := rfl
@[simp] theorem State.beginStep_fb : (s.beginStep dt).fb = s.fb := rfl
@[simp] theorem State.beginStep_draw : (s.beginStep dt).draw = false := rfl
@[simp] theorem State.beginStep_clear : (s.beginStep dt).clear = false := rfl
@[simp] theorem State.beginStep_fault : (s.beginStep dt).fault = s.fault := rfl
@[simp] theorem State.beginStep_drawIndex : (s.beginStep dt).drawIndex = s.drawIndex := rfl
@[simp] theorem State.beginStep_stepIndex : (s.beginStep dt).stepIndex = s.stepIndex + 1 := rfl
@[simp] theorem State.beginStep_log : (s.beginStep dt).log = none := rfl

/-- The tone after the begin of a step: emitted exactly in a tick that finds `ST = 1` (R202). -/
@[simp] theorem State.beginStep_tone : (s.beginStep dt).tone = (s.ticks dt && s.ST == 1) := by
  simp [State.beginStep, State.timerAdvance, State.ticks]

end Sys2Proof.Machine
end

