-- ==== Sys2Proof/Laws/Registers.lean ====
section
/-! SUPPORT. What each operation does to the registers, and what the flag computations give. -/

namespace Sys2Proof.Machine

variable (s : State) (x r : Nibble) (v : Byte) (t : Word) (c : Bool) (k : FaultKind) (o : Option Word) (dt : NNRat)

/-- Register reads depend on `V` alone. -/
theorem State.reg_congr {s t : State} (h : t.V = s.V) (r : Nibble) : t.reg r = s.reg r := by
  simp only [State.reg, h]

/-- A register after a register write: the value written, or what was there before (R21). -/
@[simp] theorem State.reg_setReg : (s.setReg x v).reg r = if r = x then v else s.reg r := by
  simp only [State.reg, State.setReg, Vector.getElem_set, BitVec.toNat_inj, eq_comm (a := x)]

@[simp] theorem State.reg_setI : (s.setI t).reg r = s.reg r := rfl
@[simp] theorem State.reg_setPc : (s.setPc t).reg r = s.reg r := rfl
@[simp] theorem State.reg_advance : s.advance.reg r = s.reg r := rfl
@[simp] theorem State.reg_skipWhen : (s.skipWhen c).reg r = s.reg r := rfl
@[simp] theorem State.reg_raise : (s.raise k o).reg r = s.reg r := rfl
@[simp] theorem State.reg_beginStep : (s.beginStep dt).reg r = s.reg r := rfl

@[simp] theorem State.reg_setFlag : (s.setFlag c).reg r = if r = VF then flagByte c else s.reg r := by
  simp [State.setFlag]

/-- The flag is what remains in VF, whatever register takes the result (R171). -/
@[simp] theorem State.reg_setResult (rc : Byte × Bool) :
    (s.setResult x rc).reg r = if r = VF then flagByte rc.2 else if r = x then rc.1 else s.reg r := by
  simp [State.setResult]

/-! ### Flag computations -/

/-- `add_carry` on integers (R170). -/
theorem addCarry_toNat (a b : Byte) : (addCarry a b).1.toNat = (a.toNat + b.toNat) % 256 := by
  simp [addCarry]

/-- The carry (R170). -/
theorem addCarry_flag (a b : Byte) : (addCarry a b).2 = decide (255 < a.toNat + b.toNat) := rfl

/-- `sub_borrow` on integers (R172). -/
theorem subBorrow_toNat (a b : Byte) : (subBorrow a b).1.toNat = (a.toNat + 256 - b.toNat) % 256 := by
  have ha := a.isLt
  have hb := b.isLt
  simp only [subBorrow, BitVec.toNat_ofInt]
  omega

/-- The no-borrow flag (R172). -/
theorem subBorrow_flag (a b : Byte) : (subBorrow a b).2 = decide (b.toNat ≤ a.toNat) := rfl

theorem shiftRightOut_toNat (a : Byte) : (shiftRightOut a).1.toNat = a.toNat / 2 := by
  simp [shiftRightOut, Nat.shiftRight_eq_div_pow]

theorem shiftRightOut_flag (a : Byte) : (shiftRightOut a).2 = decide (a.toNat % 2 = 1) := by
  simp [shiftRightOut, BitVec.getLsbD, Nat.testBit_zero]

theorem shiftLeftOut_toNat (a : Byte) : (shiftLeftOut a).1.toNat = a.toNat * 2 % 256 := by
  simp [shiftLeftOut, Nat.shiftLeft_eq]

theorem shiftLeftOut_flag (a : Byte) : (shiftLeftOut a).2 = decide (128 ≤ a.toNat) := by
  have ha := a.isLt
  simp only [shiftLeftOut, BitVec.getLsbD, Nat.testBit_eq_decide_div_mod_eq]
  rw [decide_eq_decide]
  omega

@[simp] theorem flagByte_toNat : (flagByte c).toNat = c.toNat := by cases c <;> rfl

/-! ### Blocks of registers -/

@[simp] theorem State.regBlock_length : (s.regBlock x).length = x.toNat + 1 := by simp [State.regBlock]

@[simp] theorem State.regBlock_getElem (j : Nat) (h : j < (s.regBlock x).length) :
    (s.regBlock x)[j] = s.reg (BitVec.ofNat 4 j) := by simp [State.regBlock]

/-- Writing a block of registers writes `V` only. -/
theorem State.setRegBlock_frame (i : Nat) (l : List Byte) :
    s.setRegBlock i l = { s with V := (s.setRegBlock i l).V } := by
  induction l generalizing s i with
  | nil => rfl
  | cons v l ih =>
    rw [State.setRegBlock, ih]
    rfl

/-- A register after a block write (R234). -/
theorem State.reg_setRegBlock (i : Nat) (l : List Byte) (h : i + l.length ≤ 16) :
    (s.setRegBlock i l).reg r =
      if hr : i ≤ r.toNat ∧ r.toNat < i + l.length then l[r.toNat - i]'(by omega) else s.reg r := by
  induction l generalizing s i with
  | nil =>
    rw [dif_neg (by simp)]
    rfl
  | cons v l ih =>
    simp only [List.length_cons] at h
    rw [State.setRegBlock, ih _ _ (by omega), State.reg_setReg]
    have hi : r = BitVec.ofNat 4 i ↔ r.toNat = i := by
      rw [← BitVec.toNat_inj, BitVec.toNat_ofNat, Nat.mod_eq_of_lt (by omega)]
    simp only [hi, List.length_cons]
    by_cases h0 : r.toNat = i
    · rw [dif_neg (by omega), dif_pos (by omega), if_pos h0]
      simp [h0]
    · by_cases h1 : i + 1 ≤ r.toNat ∧ r.toNat < i + 1 + l.length
      · have h2 : r.toNat - i = (r.toNat - (i + 1)) + 1 := by omega
        rw [dif_pos h1, dif_pos (by omega)]
        simp [h2]
      · rw [dif_neg h1, dif_neg (by omega), if_neg h0]

/-! ### Key operands -/

/-- The key operand exists exactly when `V[x] <= 15` (R217). -/
theorem State.keyAt_eq_none : s.keyAt x = none ↔ 15 < (s.reg x).toNat := by
  simp only [State.keyAt]
  split_ifs with h <;> simp <;> omega

theorem State.keyAt_eq (h : (s.reg x).toNat < 16) : s.keyAt x = some s.keys[(s.reg x).toNat] := by
  simp [State.keyAt, h]

end Sys2Proof.Machine
end

