-- ==== Sys2Proof/Laws/Step.lean ====
section
/-! SUPPORT. What the shared operations of instructions and of the step can do, each said once. -/

namespace Sys2Proof.Machine

variable {s t : State}

/-- `CheckRange` passes exactly when the highest address is at most 0xFFF (R66). -/
theorem inRange_iff (hi : Nat) : inRange hi = true ↔ hi ≤ 0xFFF := by
  rw [inRange, decide_eq_true_iff, Config.memSize]
  omega

/-- A fetch succeeds exactly when `pc <= 0xFFE` (R125). -/
theorem State.canFetch_iff : s.canFetch = true ↔ s.pc.toNat ≤ 0xFFE := by
  rw [State.canFetch, inRange_iff]
  omega

/-- A push answers `none` exactly when 16 frames are in use (R26). -/
theorem State.push_eq_none (v : Word) : s.push v = none ↔ s.sp.val = 16 := by
  have := s.sp.isLt
  simp only [State.push, Config.stackDepth]
  split_ifs with h <;> simp <;> omega

/-- A push that answers wrote slot `sp` and counted one frame more (R26). -/
theorem State.push_eq_some {v : Word} (h : s.push v = some t) :
    ∃ hs : s.sp.val < 16, t = { s with stack := s.stack.set s.sp.val v, sp := ⟨s.sp.val + 1, by omega⟩ } := by
  simp only [State.push, Config.stackDepth] at h
  split_ifs at h with hs
  · exact ⟨hs, (Option.some.inj h).symm⟩

/-- A pop answers `none` exactly when no frame is in use (R26). -/
theorem State.pop_eq_none : s.pop = none ↔ s.sp.val = 0 := by
  simp only [State.pop]
  split_ifs with h <;> simp <;> omega

/-- A pop that answers counted one frame less and read the slot it freed (R26). -/
theorem State.pop_eq_some {ra : Word} (h : s.pop = some (ra, t)) :
    ∃ hs : 0 < s.sp.val, ra = s.stack[s.sp.val - 1]'(by have := s.sp.isLt; omega) ∧
      t = { s with sp := ⟨s.sp.val - 1, by have := s.sp.isLt; omega⟩ } := by
  simp only [State.pop] at h
  split_ifs at h with hs
  · obtain ⟨h1, h2⟩ := Prod.mk.inj (Option.some.inj h)
    exact ⟨hs, h1.symm, h2.symm⟩

/-- A store at `I` in range writes the bytes and advances `pc` (R235). -/
theorem State.storeAtI_inRange {bytes : List Byte} (w : Word) (h : s.I.toNat + (bytes.length - 1) ≤ 0xFFF) :
    s.storeAtI bytes w = { s with mem := s.mem.writeBytes s.I.toNat bytes, pc := s.pc + 2 } := by
  rw [State.storeAtI, State.addr, if_pos ((inRange_iff _).2 h)]
  rfl

/-- A store at `I` out of range raises MemoryOutOfBounds and writes nothing (R66, R252). -/
theorem State.storeAtI_outOfRange {bytes : List Byte} (w : Word) (h : 0xFFF < s.I.toNat + (bytes.length - 1)) :
    s.storeAtI bytes w = s.raise .memoryOutOfBounds (some w) := by
  rw [State.storeAtI, State.addr, if_neg fun h' => absurd ((inRange_iff _).1 h') (by omega)]

/-- What a sprite covers reads is what DXYN's range check allows (R192). -/
theorem State.spriteInRange_iff (n : Nibble) :
    s.spriteInRange n = true ↔ n.toNat = 0 ∨ s.I.toNat + (n.toNat - 1) ≤ 0xFFF := by
  rw [State.spriteInRange, Bool.or_eq_true, inRange_iff, beq_iff_eq, State.addr, ← BitVec.toNat_inj]
  rfl

/-- A poll with an event latched completes the wait (R216). -/
theorem State.waitPoll_event (x : Nibble) (h : s.keyEvent = true) :
    s.waitPoll x = ({ s with keyEvent := false, wait := none }.setReg x (zextNibble s.lastKey)).advance := if_pos h

/-- A poll with no event latched changes nothing (R216). -/
theorem State.waitPoll_quiet (x : Nibble) (h : s.keyEvent = false) : s.waitPoll x = s :=
  if_neg (by simp [h])

/-- The begin of a step changes neither the word to be fetched nor whether it can be (R122). -/
@[simp] theorem State.fetchWord_beginStep (dt : NNRat) : (s.beginStep dt).fetchWord = s.fetchWord := rfl

@[simp] theorem State.canFetch_beginStep (dt : NNRat) : (s.beginStep dt).canFetch = s.canFetch := rfl

/-- Everything a step can do (R120): nothing when halted, a wait poll when waiting, else a fetch fault, an invalid
opcode, or one decoded instruction, each after the timer and flag phases. -/
theorem stepWith_cases {dt : NNRat} {policy : Policy} {o : Host.Outcome State Fault Refusal}
    (h : stepWith dt policy s = o) :
    (s.fault.isSome ∧ o = .next s) ∨
    (s.fault = none ∧ ∃ x, s.wait = some x ∧ o = .next ((s.beginStep dt).waitPoll x)) ∨
    (s.fault = none ∧ s.wait = none ∧ 0xFFE < s.pc.toNat ∧
      o = .next ((s.beginStep dt).raise .memoryOutOfBounds none)) ∨
    (s.fault = none ∧ s.wait = none ∧ s.pc.toNat ≤ 0xFFE ∧ decodeWord s.fetchWord = none ∧
      o = .next ((s.beginStep dt).invalidOpcode policy s.fetchWord)) ∨
    (s.fault = none ∧ s.wait = none ∧ s.pc.toNat ≤ 0xFFE ∧
      ∃ i, decodeWord s.fetchWord = some i ∧ o = exec i (s.beginStep dt)) := by
  subst h
  unfold stepWith
  rcases hf : s.fault with _ | r
  · rcases hw : s.wait with _ | x
    · by_cases hc : s.canFetch = true
      · have hc' := State.canFetch_iff.1 hc
        rcases hd : decodeWord s.fetchWord with _ | i <;>
          simp [State.pollOrFetch, State.fetchAndExecute, hw, hc, hc', hd]
      · have hc' : 0xFFE < s.pc.toNat := by
          by_contra h
          exact hc (State.canFetch_iff.2 (by omega))
        simp [State.pollOrFetch, State.fetchAndExecute, hw, hc, hc']
    · simp [State.pollOrFetch, hw]
  · simp

/-- The host's placed word is the word the next step fetches: in a canonical memory, the machine then is neither halted
nor waiting, can fetch, and fetches exactly it. -/
theorem State.withFetchWord_fetches (hm : s.mem.wf) (nbits w : Nat) :
    (s.withFetchWord nbits w).fault = none ∧ (s.withFetchWord nbits w).wait = none ∧
      (s.withFetchWord nbits w).canFetch = true ∧ (s.withFetchWord nbits w).fetchWord = tableWord nbits w := by
  have hpc : (s.withFetchWord nbits w).pc.toNat ≤ 0xFFE := by
    simp only [State.withFetchWord, State.readyToFetch]
    split_ifs with h
    · exact State.canFetch_iff.1 h
    · decide
  refine ⟨rfl, rfl, State.canFetch_iff.2 hpc, ?_⟩
  have hmem : (s.withFetchWord nbits w).mem = s.mem.writeBytes (s.withFetchWord nbits w).pc.toNat
      [hiByte (tableWord nbits w), loByte (tableWord nbits w)] := rfl
  have hin : (s.withFetchWord nbits w).pc.toNat +
      [hiByte (tableWord nbits w), loByte (tableWord nbits w)].length ≤ Config.memSize := by
    simp only [List.length_cons, List.length_nil, Config.memSize]
    omega
  rw [State.fetchWord, hmem, Memory.read_writeBytes hm hin, Memory.read_writeBytes hm hin,
    dif_pos (by simp), dif_pos (by simp)]
  simpa [wordOfBytes] using wordOfBytes_bytes (tableWord nbits w)

end Sys2Proof.Machine
end

