-- ==== Sys2Proof/Laws/Exec.lean ====
section
/-! SUPPORT. The meanings that can raise a fault, each said once: its condition, its effect, and that both are a next
state (`60_exceptions.md` R254). Every other meaning is one equation and needs no such lemma. -/

namespace Sys2Proof.Machine

variable (s : State) (x y n : Nibble) (nnn : Addr)

/-- 00EE pops when a frame is in use, else faults (R141). -/
theorem execRet_cases :
    (∃ ra, ∃ h : 0 < s.sp.val, s.stack[s.sp.val - 1]? = some ra ∧
      execRet s = .next { s with sp := ⟨s.sp.val - 1, by have := s.sp.isLt; omega⟩, pc := ra + 2 }) ∨
    (s.sp.val = 0 ∧ execRet s = .next (s.raise .stackUnderflow (some (encode .ret)))) := by
  have hlt := s.sp.isLt
  by_cases h : 0 < s.sp.val
  · refine .inl ⟨s.stack[s.sp.val - 1]'(by omega), h, by simp, ?_⟩
    simp only [execRet, State.pop, h, dite_true]
    rfl
  · refine .inr ⟨by omega, ?_⟩
    simp [execRet, State.pop, h]

/-- 2NNN pushes below 16 frames, else faults (R143). -/
theorem execCall_cases :
    (∃ h : s.sp.val < 16, execCall nnn s = .next
      { s with
        stack := s.stack.set s.sp.val s.pc, sp := ⟨s.sp.val + 1, Nat.succ_lt_succ h⟩, pc := zextAddr nnn }) ∨
    (s.sp.val = 16 ∧ execCall nnn s = .next (s.raise .stackOverflow (some (encode (.call nnn))))) := by
  have hlt := s.sp.isLt
  by_cases h : s.sp.val < 16
  · refine .inl ⟨h, ?_⟩
    simp only [execCall, State.push, Config.stackDepth, h, dite_true]
    rfl
  · refine .inr ⟨by omega, ?_⟩
    simp [execCall, State.push, Config.stackDepth, h]

/-- EX9E skips by the level of an existing key, else faults (R213, R217). -/
theorem execSkp_cases :
    (∃ h : (s.reg x).toNat < 16,
      execSkp x s = .next (s.skipWhen (s.keys[(s.reg x).toNat] == .down))) ∨
    (15 < (s.reg x).toNat ∧ execSkp x s = .next (s.raise .keyOutOfRange (some (encode (.skp x))))) := by
  by_cases h : (s.reg x).toNat < 16
  · exact .inl ⟨h, by simp [execSkp, State.keyAt_eq _ _ h]⟩
  · have h' : 15 < (s.reg x).toNat := by omega
    exact .inr ⟨h', by simp [execSkp, (State.keyAt_eq_none _ _).2 h']⟩

/-- EXA1 skips by the level of an existing key, else faults (R214, R217). -/
theorem execSknp_cases :
    (∃ h : (s.reg x).toNat < 16,
      execSknp x s = .next (s.skipWhen (s.keys[(s.reg x).toNat] == .up))) ∨
    (15 < (s.reg x).toNat ∧ execSknp x s = .next (s.raise .keyOutOfRange (some (encode (.sknp x))))) := by
  by_cases h : (s.reg x).toNat < 16
  · exact .inl ⟨h, by simp [execSknp, State.keyAt_eq _ _ h]⟩
  · have h' : 15 < (s.reg x).toNat := by omega
    exact .inr ⟨h', by simp [execSknp, (State.keyAt_eq_none _ _).2 h']⟩

/-- DXYN draws when its bytes are in range, else faults (R192). -/
theorem execDrw_cases :
    ((n.toNat = 0 ∨ s.I.toNat + (n.toNat - 1) ≤ 0xFFF) ∧ execDrw x y n s = .next
      ({ s with fb := (s.sprite x y n).1, draw := true }.setFlag (s.sprite x y n).2).advance) ∨
    (0 < n.toNat ∧ 0xFFF < s.I.toNat + (n.toNat - 1) ∧
      execDrw x y n s = .next (s.raise .memoryOutOfBounds (some (encode (.drw x y n))))) := by
  have hr := State.spriteInRange_iff (s := s) n
  by_cases h : s.spriteInRange n = true
  · exact .inl ⟨hr.1 h, by rw [execDrw, if_pos h]⟩
  · rw [hr] at h
    exact .inr ⟨by omega, by omega, by rw [execDrw, if_neg fun h' => h (hr.1 h')]⟩

/-- FX1E adds when the sum is in range, else faults (R230). -/
theorem execAddI_cases :
    (s.I.toNat + (s.reg x).toNat ≤ 0xFFF ∧
      execAddI x s = .next (s.setI (BitVec.ofNat 16 (s.I.toNat + (s.reg x).toNat))).advance) ∨
    (0xFFF < s.I.toNat + (s.reg x).toNat ∧
      execAddI x s = .next (s.raise .memoryOutOfBounds (some (encode (.addI x))))) := by
  have hr := inRange_iff (s.I.toNat + (s.reg x).toNat)
  rcases Nat.lt_or_ge 0xFFF (s.I.toNat + (s.reg x).toNat) with h | h
  · exact .inr ⟨h, by rw [execAddI, State.addr, if_neg fun h' => absurd (hr.1 h') (by omega)]⟩
  · exact .inl ⟨h, by rw [execAddI, State.addr, if_pos (hr.2 h)]⟩

/-- FX33 stores when its bytes are in range, else faults (R232). -/
theorem execStoreBcd_cases :
    (s.I.toNat + 2 ≤ 0xFFF ∧ execStoreBcd x s = .next
      { s with mem := s.mem.writeBytes s.I.toNat (bcdDigits (s.reg x)), pc := s.pc + 2 }) ∨
    (0xFFF < s.I.toNat + 2 ∧
      execStoreBcd x s = .next (s.raise .memoryOutOfBounds (some (encode (.storeBcd x))))) := by
  rcases Nat.lt_or_ge 0xFFF (s.I.toNat + 2) with h | h
  · exact .inr ⟨h, by rw [execStoreBcd, State.storeAtI_outOfRange _ h]⟩
  · exact .inl ⟨h, by rw [execStoreBcd, State.storeAtI_inRange _ h]⟩

/-- FX55 stores when its bytes are in range, else faults (R233). -/
theorem execStoreRegs_cases :
    (s.I.toNat + x.toNat ≤ 0xFFF ∧ execStoreRegs x s = .next
      { s with mem := s.mem.writeBytes s.I.toNat (s.regBlock x), pc := s.pc + 2 }) ∨
    (0xFFF < s.I.toNat + x.toNat ∧
      execStoreRegs x s = .next (s.raise .memoryOutOfBounds (some (encode (.storeRegs x))))) := by
  have hl : (s.regBlock x).length - 1 = x.toNat := by rw [State.regBlock_length, Nat.add_sub_cancel]
  rcases Nat.lt_or_ge 0xFFF (s.I.toNat + x.toNat) with h | h
  · exact .inr ⟨h, by rw [execStoreRegs, State.storeAtI_outOfRange _ (by rwa [hl])]⟩
  · exact .inl ⟨h, by rw [execStoreRegs, State.storeAtI_inRange _ (by rwa [hl])]⟩

/-- FX65 loads when its bytes are in range, else faults (R234). -/
theorem execLoadRegs_cases :
    (s.I.toNat + x.toNat ≤ 0xFFF ∧ execLoadRegs x s = .next
      { s with
        V := (s.setRegBlock 0 (s.mem.readBytes s.I.toNat (x.toNat + 1))).V, pc := s.pc + 2 }) ∨
    (0xFFF < s.I.toNat + x.toNat ∧
      execLoadRegs x s = .next (s.raise .memoryOutOfBounds (some (encode (.loadRegs x))))) := by
  have hr := inRange_iff (s.I.toNat + x.toNat)
  rcases Nat.lt_or_ge 0xFFF (s.I.toNat + x.toNat) with h | h
  · exact .inr ⟨h, by rw [execLoadRegs, State.addr, if_neg fun h' => absurd (hr.1 h') (by omega)]⟩
  · refine .inl ⟨h, ?_⟩
    rw [execLoadRegs, State.addr, if_pos (hr.2 h), State.setRegBlock_frame]
    rfl

end Sys2Proof.Machine
end

