-- ==== Sys2Proof/Laws/Interface.lean ====
section
/-! SUPPORT. What the transactions besides STEP can do, each said once. -/

namespace Sys2Proof.Machine

variable (s : State) (k : Nibble) (st : KeyState)

/-- RESET of a new machine answers it, or LoadFailure, by the length of the image (R283). -/
theorem State.load_cases (image : List Byte) :
    (image.length ≤ 3584 ∧ State.load image =
      .next { State.reset with mem := State.reset.mem.writeBytes 0x200 image }) ∨
    (3584 < image.length ∧ State.load image = .fault .loadFailure) := by
  rcases Nat.lt_or_ge 3584 image.length with h | h
  · exact .inr ⟨h, if_neg (Nat.not_le.2 h)⟩
  · exact .inl ⟨h, if_pos h⟩

/-- A key-down event (R211). -/
theorem State.setKey_down (h : s.key k = .up) :
    s.setKey k .down =
      { s with
        keys := s.keys.set k.toNat .down k.isLt, pressedCount := s.pressedCount + 1, lastKey := k,
        keyEvent := true } := by
  simp only [State.setKey, h]

/-- SET_KEY that is no key-down event leaves everything but the keys and their count: the latch and the last key are
what they were (R211). -/
theorem State.setKey_quiet (h : st = .up ∨ s.key k = .down) :
    s.setKey k st = { s with keys := (s.setKey k st).keys, pressedCount := (s.setKey k st).pressedCount } := by
  unfold State.setKey
  split
  · next hk =>
    rcases h with h | h
    · cases h
    · rw [hk] at h
      cases h
  all_goals rfl

end Sys2Proof.Machine
end

