-- ==== Sys2Proof/Laws/PerInstr.lean ====
section
/-! SUPPORT. One lemma per instruction of the family TableRow: the word of an instruction matches the row of the opcode
map that `30_encoding.md` R98 gives it. -/

namespace Sys2Proof.Laws

open Sys2Proof Sys2Proof.Machine

/-- The instruction's word, masked with its row's mask, is its row's match (R98). -/
def TableRow.Statement (i : Instr) : Prop := encode i &&& i.row.mask = i.row.pattern

theorem and_packNNN (f f' : Nibble) (a a' : Addr) :
    packNNN f a &&& packNNN f' a' = packNNN (f &&& f') (a &&& a') := by
  refine BitVec.eq_of_getLsbD_eq fun j hj => ?_
  simp only [BitVec.getLsbD_and, getLsbD_packNNN]
  split_ifs <;> rfl

theorem and_packXNN (f f' x x' : Nibble) (v v' : Byte) :
    packXNN f x v &&& packXNN f' x' v' = packXNN (f &&& f') (x &&& x') (v &&& v') := by
  refine BitVec.eq_of_getLsbD_eq fun j hj => ?_
  simp only [BitVec.getLsbD_and, getLsbD_packXNN]
  split_ifs <;> rfl

theorem and_packXYN (f f' x x' y y' n n' : Nibble) :
    packXYN f x y n &&& packXYN f' x' y' n' = packXYN (f &&& f') (x &&& x') (y &&& y') (n &&& n') := by
  refine BitVec.eq_of_getLsbD_eq fun j hj => ?_
  simp only [BitVec.getLsbD_and, getLsbD_packXYN]
  split_ifs <;> rfl

/-- Masks and matches as packed words, so that a masked word is read field by field. -/
theorem mask_F000_NNN : (0xF000 : Word) = packNNN 0xF 0#12 := by decide
theorem mask_F000_XNN : (0xF000 : Word) = packXNN 0xF 0#4 0#8 := by decide
theorem mask_F000_XYN : (0xF000 : Word) = packXYN 0xF 0#4 0#4 0#4 := by decide
theorem mask_F00F_XYN : (0xF00F : Word) = packXYN 0xF 0#4 0#4 0xF := by decide
theorem mask_F0FF_XNN : (0xF0FF : Word) = packXNN 0xF 0#4 0xFF := by decide

theorem TableRow.cls : TableRow.Statement .cls := by
  unfold TableRow.Statement
  decide

theorem TableRow.ret : TableRow.Statement .ret := by
  unfold TableRow.Statement
  decide

theorem TableRow.jp (nnn : Addr) : TableRow.Statement (.jp nnn) := by
  simp only [TableRow.Statement, Instr.row, encode, mask_F000_NNN, and_packNNN, BitVec.and_zero]
  decide

theorem TableRow.call (nnn : Addr) : TableRow.Statement (.call nnn) := by
  simp only [TableRow.Statement, Instr.row, encode, mask_F000_NNN, and_packNNN, BitVec.and_zero]
  decide

theorem TableRow.seImm (x : Nibble) (nn : Byte) : TableRow.Statement (.seImm x nn) := by
  simp only [TableRow.Statement, Instr.row, encode, mask_F000_XNN, and_packXNN, BitVec.and_zero]
  decide

theorem TableRow.sneImm (x : Nibble) (nn : Byte) : TableRow.Statement (.sneImm x nn) := by
  simp only [TableRow.Statement, Instr.row, encode, mask_F000_XNN, and_packXNN, BitVec.and_zero]
  decide

theorem TableRow.seReg (x : Nibble) (y : Nibble) (n : Nibble) : TableRow.Statement (.seReg x y n) := by
  simp only [TableRow.Statement, Instr.row, encode, mask_F000_XYN, and_packXYN, BitVec.and_zero]
  decide

theorem TableRow.ldImm (x : Nibble) (nn : Byte) : TableRow.Statement (.ldImm x nn) := by
  simp only [TableRow.Statement, Instr.row, encode, mask_F000_XNN, and_packXNN, BitVec.and_zero]
  decide

theorem TableRow.addImm (x : Nibble) (nn : Byte) : TableRow.Statement (.addImm x nn) := by
  simp only [TableRow.Statement, Instr.row, encode, mask_F000_XNN, and_packXNN, BitVec.and_zero]
  decide

theorem TableRow.ldReg (x : Nibble) (y : Nibble) : TableRow.Statement (.ldReg x y) := by
  simp only [TableRow.Statement, Instr.row, encode, mask_F00F_XYN, and_packXYN, BitVec.and_zero]
  decide

theorem TableRow.orReg (x : Nibble) (y : Nibble) : TableRow.Statement (.orReg x y) := by
  simp only [TableRow.Statement, Instr.row, encode, mask_F00F_XYN, and_packXYN, BitVec.and_zero]
  decide

theorem TableRow.andReg (x : Nibble) (y : Nibble) : TableRow.Statement (.andReg x y) := by
  simp only [TableRow.Statement, Instr.row, encode, mask_F00F_XYN, and_packXYN, BitVec.and_zero]
  decide

theorem TableRow.xorReg (x : Nibble) (y : Nibble) : TableRow.Statement (.xorReg x y) := by
  simp only [TableRow.Statement, Instr.row, encode, mask_F00F_XYN, and_packXYN, BitVec.and_zero]
  decide

theorem TableRow.addReg (x : Nibble) (y : Nibble) : TableRow.Statement (.addReg x y) := by
  simp only [TableRow.Statement, Instr.row, encode, mask_F00F_XYN, and_packXYN, BitVec.and_zero]
  decide

theorem TableRow.subReg (x : Nibble) (y : Nibble) : TableRow.Statement (.subReg x y) := by
  simp only [TableRow.Statement, Instr.row, encode, mask_F00F_XYN, and_packXYN, BitVec.and_zero]
  decide

theorem TableRow.shr (x : Nibble) (y : Nibble) : TableRow.Statement (.shr x y) := by
  simp only [TableRow.Statement, Instr.row, encode, mask_F00F_XYN, and_packXYN, BitVec.and_zero]
  decide

theorem TableRow.subnReg (x : Nibble) (y : Nibble) : TableRow.Statement (.subnReg x y) := by
  simp only [TableRow.Statement, Instr.row, encode, mask_F00F_XYN, and_packXYN, BitVec.and_zero]
  decide

theorem TableRow.shl (x : Nibble) (y : Nibble) : TableRow.Statement (.shl x y) := by
  simp only [TableRow.Statement, Instr.row, encode, mask_F00F_XYN, and_packXYN, BitVec.and_zero]
  decide

theorem TableRow.sneReg (x : Nibble) (y : Nibble) (n : Nibble) : TableRow.Statement (.sneReg x y n) := by
  simp only [TableRow.Statement, Instr.row, encode, mask_F000_XYN, and_packXYN, BitVec.and_zero]
  decide

theorem TableRow.ldI (nnn : Addr) : TableRow.Statement (.ldI nnn) := by
  simp only [TableRow.Statement, Instr.row, encode, mask_F000_NNN, and_packNNN, BitVec.and_zero]
  decide

theorem TableRow.jpV0 (nnn : Addr) : TableRow.Statement (.jpV0 nnn) := by
  simp only [TableRow.Statement, Instr.row, encode, mask_F000_NNN, and_packNNN, BitVec.and_zero]
  decide

theorem TableRow.rnd (x : Nibble) (nn : Byte) : TableRow.Statement (.rnd x nn) := by
  simp only [TableRow.Statement, Instr.row, encode, mask_F000_XNN, and_packXNN, BitVec.and_zero]
  decide

theorem TableRow.drw (x : Nibble) (y : Nibble) (n : Nibble) : TableRow.Statement (.drw x y n) := by
  simp only [TableRow.Statement, Instr.row, encode, mask_F000_XYN, and_packXYN, BitVec.and_zero]
  decide

theorem TableRow.skp (x : Nibble) : TableRow.Statement (.skp x) := by
  simp only [TableRow.Statement, Instr.row, encode, mask_F0FF_XNN, and_packXNN, BitVec.and_zero]
  decide

theorem TableRow.sknp (x : Nibble) : TableRow.Statement (.sknp x) := by
  simp only [TableRow.Statement, Instr.row, encode, mask_F0FF_XNN, and_packXNN, BitVec.and_zero]
  decide

theorem TableRow.getDT (x : Nibble) : TableRow.Statement (.getDT x) := by
  simp only [TableRow.Statement, Instr.row, encode, mask_F0FF_XNN, and_packXNN, BitVec.and_zero]
  decide

theorem TableRow.waitKey (x : Nibble) : TableRow.Statement (.waitKey x) := by
  simp only [TableRow.Statement, Instr.row, encode, mask_F0FF_XNN, and_packXNN, BitVec.and_zero]
  decide

theorem TableRow.setDT (x : Nibble) : TableRow.Statement (.setDT x) := by
  simp only [TableRow.Statement, Instr.row, encode, mask_F0FF_XNN, and_packXNN, BitVec.and_zero]
  decide

theorem TableRow.setST (x : Nibble) : TableRow.Statement (.setST x) := by
  simp only [TableRow.Statement, Instr.row, encode, mask_F0FF_XNN, and_packXNN, BitVec.and_zero]
  decide

theorem TableRow.addI (x : Nibble) : TableRow.Statement (.addI x) := by
  simp only [TableRow.Statement, Instr.row, encode, mask_F0FF_XNN, and_packXNN, BitVec.and_zero]
  decide

theorem TableRow.ldFont (x : Nibble) : TableRow.Statement (.ldFont x) := by
  simp only [TableRow.Statement, Instr.row, encode, mask_F0FF_XNN, and_packXNN, BitVec.and_zero]
  decide

theorem TableRow.storeBcd (x : Nibble) : TableRow.Statement (.storeBcd x) := by
  simp only [TableRow.Statement, Instr.row, encode, mask_F0FF_XNN, and_packXNN, BitVec.and_zero]
  decide

theorem TableRow.storeRegs (x : Nibble) : TableRow.Statement (.storeRegs x) := by
  simp only [TableRow.Statement, Instr.row, encode, mask_F0FF_XNN, and_packXNN, BitVec.and_zero]
  decide

theorem TableRow.loadRegs (x : Nibble) : TableRow.Statement (.loadRegs x) := by
  simp only [TableRow.Statement, Instr.row, encode, mask_F0FF_XNN, and_packXNN, BitVec.and_zero]
  decide

end Sys2Proof.Laws
end

