-- ==== Sys2Proof/Tests/Slice0.lean ====
section
/-! SUPPORT. Tests: words written out from the patterns of R98, single steps with their results from the vectors of
`spec/95_test_vectors.md` (named in each comment), and a witness for the hypotheses of every statement. -/

namespace Sys2Proof.Tests

open Sys2Proof Sys2Proof.Machine

/-! ### Well-formedness -/

theorem test_seReg_low_nibble_refused : (Instr.seReg 0x2 0x3 0x1).wellFormed = false := by decide

theorem test_sneReg_low_nibble_refused : (Instr.sneReg 0x2 0x3 0xF).wellFormed = false := by decide

theorem test_canonical_accepted :
    (Instr.seReg 0x2 0x3 0x0).wellFormed = true ∧ (Instr.shr 0x1 0x2).wellFormed = true := by decide

/-! ### Decoding: a word of every row, its fields written out -/

theorem test_decode_fixed :
    decodeWord 0b0000_0000_1110_0000#16 = some .cls ∧
    decodeWord 0b0000_0000_1110_1110#16 = some .ret := by decide

theorem test_decode_control :
    decodeWord 0b0001_0010_0010_1000#16 = some (.jp 0x228) ∧
    decodeWord 0b0010_0011_0000_0001#16 = some (.call 0x301) ∧
    decodeWord 0b0011_1010_0011_0101#16 = some (.seImm 0xA 0x35) ∧
    decodeWord 0b0100_0001_1000_0000#16 = some (.sneImm 0x1 0x80) ∧
    decodeWord 0b0101_0010_0011_0100#16 = some (.seReg 0x2 0x3 0x4) ∧
    decodeWord 0b1001_0010_0011_0111#16 = some (.sneReg 0x2 0x3 0x7) ∧
    decodeWord 0b1011_0011_0000_0010#16 = some (.jpV0 0x302) := by decide

theorem test_decode_immediate :
    decodeWord 0b0110_1010_0011_0101#16 = some (.ldImm 0xA 0x35) ∧
    decodeWord 0b0111_0011_0000_0110#16 = some (.addImm 0x3 0x06) ∧
    decodeWord 0b1010_0010_0001_0000#16 = some (.ldI 0x210) ∧
    decodeWord 0b1100_0001_0000_1111#16 = some (.rnd 0x1 0x0F) := by decide

theorem test_decode_alu :
    decodeWord 0b1000_0001_0010_0000#16 = some (.ldReg 0x1 0x2) ∧
    decodeWord 0b1000_0001_0010_0001#16 = some (.orReg 0x1 0x2) ∧
    decodeWord 0b1000_0001_0010_0010#16 = some (.andReg 0x1 0x2) ∧
    decodeWord 0b1000_0001_0010_0011#16 = some (.xorReg 0x1 0x2) ∧
    decodeWord 0b1000_0001_0010_0100#16 = some (.addReg 0x1 0x2) ∧
    decodeWord 0b1000_0001_0010_0101#16 = some (.subReg 0x1 0x2) ∧
    decodeWord 0b1000_0001_0010_0110#16 = some (.shr 0x1 0x2) ∧
    decodeWord 0b1000_0001_0010_0111#16 = some (.subnReg 0x1 0x2) ∧
    decodeWord 0b1000_0001_0010_1110#16 = some (.shl 0x1 0x2) := by decide

theorem test_decode_draw : decodeWord 0b1101_0000_0001_0100#16 = some (.drw 0x0 0x1 0x4) := by decide

theorem test_decode_key :
    decodeWord 0b1110_0100_1001_1110#16 = some (.skp 0x4) ∧
    decodeWord 0b1110_0100_1010_0001#16 = some (.sknp 0x4) := by decide

theorem test_decode_misc :
    decodeWord 0b1111_0010_0000_0111#16 = some (.getDT 0x2) ∧
    decodeWord 0b1111_0010_0000_1010#16 = some (.waitKey 0x2) ∧
    decodeWord 0b1111_0010_0001_0101#16 = some (.setDT 0x2) ∧
    decodeWord 0b1111_0010_0001_1000#16 = some (.setST 0x2) ∧
    decodeWord 0b1111_0010_0001_1110#16 = some (.addI 0x2) ∧
    decodeWord 0b1111_0010_0010_1001#16 = some (.ldFont 0x2) ∧
    decodeWord 0b1111_0010_0011_0011#16 = some (.storeBcd 0x2) ∧
    decodeWord 0b1111_0010_0101_0101#16 = some (.storeRegs 0x2) ∧
    decodeWord 0b1111_0010_0110_0101#16 = some (.loadRegs 0x2) := by decide

/-- T-DEC-1 to T-DEC-5. -/
theorem test_decode_invalid :
    decodeWord 0x0000 = none ∧ decodeWord 0x00E1 = none ∧ decodeWord 0x0123 = none ∧ decodeWord 0x8008 = none ∧
    decodeWord 0x812F = none ∧ decodeWord 0xE0A2 = none ∧ decodeWord 0xF01F = none ∧ decodeWord 0xF175 = none := by
  decide

/-- R64: the first byte is the high half; fewer than two bytes are no instruction (R90). -/
theorem test_decode_bytes :
    decodeBytes [0xA2, 0x10, 0x77] = .ok (.ldI 0x210, [0x77]) ∧ decodeBytes [0xA2] = .error .truncated := by decide

theorem test_decode_table_word : decodeTableWord 16 0xF265 = some (.loadRegs 0x2) := by decide

/-! ### Single steps -/

/-- The reset state with some registers set. -/
def withRegs (l : List (Nibble × Byte)) : State := l.foldl (fun s p => s.setReg p.1 p.2) State.reset

/-- Some bytes placed in memory. -/
def place (s : State) (a : Nat) (l : List Byte) : State := { s with mem := s.mem.writeBytes a l }

/-- The next state an outcome answers, if it answers one. -/
def answered (o : Host.Outcome State Fault Refusal) : Option State :=
  match o with
  | .next t => some t
  | .fault _ => none
  | .refused _ => none

/-- A part of the state after one `STEP(dt)` under policy halt with a word placed at `pc`. -/
def afterIn {α : Type} (dt : NNRat) (w : Word) (s : State) (f : State → α) : Option α :=
  (answered (stepWith dt .halt (place s s.pc.toNat [hiByte w, loByte w]))).map f

/-- The same with `dt = 0`. -/
def after {α : Type} (w : Word) (s : State) (f : State → α) : Option α := afterIn 0 w s f

/-- T-DSP-1. -/
theorem test_cls :
    after 0x00E0 { State.reset with fb := 0x21 } (fun t => (t.fb, t.clear, t.draw, t.pc))
      = some (0, true, false, 0x202) := by decide +kernel

/-- T-CTL-1: past the CALL whose address was pushed. -/
theorem test_ret :
    after 0x00EE { State.reset with pc := 0x300, sp := 1, stack := State.reset.stack.set 0 0x204 }
      (fun t => (t.pc, t.sp)) = some (0x206, 0) := by decide

/-- T-CTL-2. -/
theorem test_ret_underflow :
    after 0x00EE { State.reset with pc := 0x300 } (fun t => (t.fault, t.pc))
      = some (some ⟨.stackUnderflow, 0x300, some 0x00EE⟩, 0x300) := by decide

/-- T-CTL-4. -/
theorem test_jp : after 0x1228 State.reset (fun t => t.pc) = some 0x228 := by decide

/-- T-CTL-9: the CALL's own address goes to slot 15. -/
theorem test_call :
    after 0x2300 { State.reset with pc := 0x204, sp := 15 } (fun t => (t.pc, t.sp, t.stack[15], t.stack[14]))
      = some (0x300, 16, 0x204, 0) := by decide

/-- T-CTL-10. -/
theorem test_call_overflow :
    after 0x2300 { State.reset with pc := 0x204, sp := 16 } (fun t => (t.fault, t.pc, t.sp, t.stack))
      = some (some ⟨.stackOverflow, 0x204, some 0x2300⟩, 0x204, 16, State.reset.stack) := by decide

/-- T-S7, T-CTL-11. -/
theorem test_seImm :
    after 0x3A33 (withRegs [(0xA, 0x33)]) (fun t => t.pc) = some 0x204 ∧
    after 0x3A33 (withRegs [(0xA, 0x34)]) (fun t => t.pc) = some 0x202 := by decide

/-- T-CTL-12, T-CTL-13. -/
theorem test_sneImm :
    after 0x4100 { State.reset with pc := 0x300 } (fun t => t.pc) = some 0x302 ∧
    after 0x4100 { withRegs [(1, 1)] with pc := 0x300 } (fun t => t.pc) = some 0x304 := by decide

/-- T-CTL-15, T-CTL-16. -/
theorem test_seReg :
    after 0x5230 (withRegs [(2, 7), (3, 8)]) (fun t => t.pc) = some 0x202 ∧
    after 0x523F (withRegs [(2, 7), (3, 7)]) (fun t => t.pc) = some 0x204 := by decide

/-- T-CTL-19, T-CTL-20. -/
theorem test_sneReg :
    after 0x9230 (withRegs [(2, 7), (3, 7)]) (fun t => t.pc) = some 0x202 ∧
    after 0x9237 (withRegs [(2, 7), (3, 8)]) (fun t => t.pc) = some 0x204 := by decide

/-- T-CTL-23: no wrap to 12 bits. -/
theorem test_jpV0 : after 0xBFFF (withRegs [(0, 0xFF)]) (fun t => t.pc) = some 0x10FE := by decide

/-- T-IMM-2. -/
theorem test_ldImm : after 0x6FFF State.reset (fun t => (t.reg 0xF, t.pc)) = some (0xFF, 0x202) := by decide

/-- T-IMM-3: the sum wraps and VF stays. -/
theorem test_addImm :
    after 0x7301 (withRegs [(3, 0xFF), (0xF, 0x5A)]) (fun t => (t.reg 3, t.reg 0xF, t.pc))
      = some (0, 0x5A, 0x202) := by decide

/-- T-IMM-6. -/
theorem test_ldI : after 0xAFFF State.reset (fun t => (t.I, t.pc)) = some (0xFFF, 0x202) := by decide

/-- T-IMM-9 leaves 0 whatever the byte, and one byte is drawn. -/
theorem test_rnd_zero_mask :
    (answered (exec (.rnd 1 0) (withRegs [(1, 0x55)]))).map (fun t => (t.reg 1, t.drawIndex, t.pc))
      = some (0, 1, 0x202) := by
  simp [answered, exec, execRnd, State.drawByte, withRegs, State.reg, State.setReg, State.advance, State.setPc,
    State.reset]

/-- T-ALU-1. -/
theorem test_ldReg : after 0x8120 (withRegs [(2, 0x5A)]) (fun t => t.reg 1) = some 0x5A := by decide

/-- T-ALU-3: VF stays. -/
theorem test_orReg :
    after 0x8121 (withRegs [(1, 0xF0), (2, 0x0F), (0xF, 0x5A)]) (fun t => (t.reg 1, t.reg 0xF))
      = some (0xFF, 0x5A) := by decide

/-- T-ALU-4. -/
theorem test_andReg : after 0x8122 (withRegs [(1, 0xF0), (2, 0x3C)]) (fun t => t.reg 1) = some 0x30 := by decide

/-- T-ALU-5. -/
theorem test_xorReg : after 0x8123 (withRegs [(1, 0xF0), (2, 0x3C)]) (fun t => t.reg 1) = some 0xCC := by decide

/-- T-ALU-10, T-ALU-12. -/
theorem test_addReg :
    after 0x8124 (withRegs [(1, 0xC8), (2, 0x64)]) (fun t => (t.reg 1, t.reg 0xF)) = some (0x2C, 1) ∧
    after 0x8124 (withRegs [(1, 0x80), (2, 0x7F), (0xF, 1)]) (fun t => (t.reg 1, t.reg 0xF)) = some (0xFF, 0) := by
  decide

/-- T-ALU-16, T-ALU-17: VF as destination and as operand. -/
theorem test_addReg_VF :
    after 0x8F14 (withRegs [(0xF, 0x10), (1, 0x20)]) (fun t => t.reg 0xF) = some 0 ∧
    after 0x81F4 (withRegs [(1, 0xFF), (0xF, 1)]) (fun t => (t.reg 1, t.reg 0xF)) = some (0, 1) := by decide

/-- T-ALU-20, T-ALU-22. -/
theorem test_subReg :
    after 0x8125 (withRegs [(1, 5), (2, 0xA), (0xF, 1)]) (fun t => (t.reg 1, t.reg 0xF)) = some (0xFB, 0) ∧
    after 0x8125 (withRegs [(1, 7), (2, 7)]) (fun t => (t.reg 1, t.reg 0xF)) = some (0, 1) := by decide

/-- T-ALU-26. -/
theorem test_subReg_VF : after 0x8F15 (withRegs [(0xF, 3), (1, 5)]) (fun t => t.reg 0xF) = some 0 := by decide

/-- T-ALU-34, T-ALU-32. -/
theorem test_shr :
    after 0x8126 (withRegs [(1, 5), (2, 0xF0)]) (fun t => (t.reg 1, t.reg 2, t.reg 0xF)) = some (2, 0xF0, 1) ∧
    after 0x8106 (withRegs [(1, 0x80), (0xF, 1)]) (fun t => (t.reg 1, t.reg 0xF)) = some (0x40, 0) := by decide

/-- T-ALU-36. -/
theorem test_shr_VF : after 0x8F06 (withRegs [(0xF, 2)]) (fun t => t.reg 0xF) = some 0 := by decide

/-- T-ALU-40, T-ALU-41. -/
theorem test_subnReg :
    after 0x8127 (withRegs [(1, 5), (2, 0xA)]) (fun t => (t.reg 1, t.reg 0xF)) = some (5, 1) ∧
    after 0x8127 (withRegs [(1, 0xA), (2, 5), (0xF, 1)]) (fun t => (t.reg 1, t.reg 0xF)) = some (0xFB, 0) := by decide

/-- T-ALU-43. -/
theorem test_subnReg_VF : after 0x8F17 (withRegs [(0xF, 9), (1, 3)]) (fun t => t.reg 0xF) = some 0 := by decide

/-- T-ALU-50, T-ALU-53. -/
theorem test_shl :
    after 0x810E (withRegs [(1, 0x81)]) (fun t => (t.reg 1, t.reg 0xF)) = some (2, 1) ∧
    after 0x812E (withRegs [(1, 0x40), (2, 0xFF), (0xF, 1)]) (fun t => (t.reg 1, t.reg 0xF)) = some (0x80, 0) := by
  decide

/-- T-ALU-55. -/
theorem test_shl_VF : after 0x8F0E (withRegs [(0xF, 0x7F)]) (fun t => t.reg 0xF) = some 0 := by decide

/-- T-DSP-3: clipped at the corner. -/
theorem test_drw_clips :
    after 0xD011 (place { withRegs [(0, 0x3E), (1, 0x1F)] with I := 0x300 } 0x300 [0xF0])
      (fun t => (t.fb, t.reg 0xF, t.draw, t.pc)) = some (3#2048 <<< 2046, 0, true, 0x202) := by decide +kernel

/-- T-DSP-14, and T-DSP-9: the columns of a row are toggled one by one, and a pixel turned OFF collides. -/
theorem test_drw_collides :
    after 0xDF01 (place { withRegs [(0xF, 3)] with I := 0x300 } 0x300 [0x80]) (fun t => (t.fb, t.reg 0xF))
      = some (8, 0) ∧
    after 0xD011 (place { State.reset with I := 0x300, fb := 2 } 0x300 [0xC0]) (fun t => (t.fb, t.reg 0xF))
      = some (1, 1) := by decide +kernel

/-- T-KEY-10, T-KEY-14. -/
theorem test_skp :
    after 0xE19E ((withRegs [(1, 5)]).setKey 5 .down) (fun t => t.pc) = some 0x204 ∧
    after 0xE19E (withRegs [(1, 0x10)]) (fun t => (t.fault, t.pc))
      = some (some ⟨.keyOutOfRange, 0x200, some 0xE19E⟩, 0x200) := by decide

/-- T-KEY-20, T-KEY-21. -/
theorem test_sknp :
    after 0xE1A1 ((withRegs [(1, 5)]).setKey 5 .down) (fun t => t.pc) = some 0x202 ∧
    after 0xE1A1 (withRegs [(1, 5)]) (fun t => t.pc) = some 0x204 := by decide

/-- T-TMR-14: the tick of the same step comes first. -/
theorem test_getDT :
    afterIn ⟨1 / 60, by norm_num⟩ 0xF207 { State.reset with DT := 0x3C } (fun t => (t.DT, t.reg 2))
      = some (0x3B, 0x3B) := by decide +kernel

/-- T-TMR-15. -/
theorem test_setDT :
    afterIn ⟨1 / 60, by norm_num⟩ 0xF315 (withRegs [(3, 0xA)]) (fun t => t.DT) = some 0xA := by decide +kernel

/-- T-TMR-17: no tone in the step of the write. -/
theorem test_setST :
    afterIn ⟨1 / 60, by norm_num⟩ 0xF318 (withRegs [(3, 1)]) (fun t => (t.ST, t.tone)) = some (1, false) := by
  decide +kernel

/-- T-TMR-6, T-TMR-7: "reaches or exceeds". -/
theorem test_tick_threshold :
    afterIn ⟨1 / 150, by norm_num⟩ 0x7000 { State.reset with DT := 5, acc := 1 / 100 } (fun t => (t.DT, t.acc))
      = some (4, 0) ∧
    afterIn ⟨1 / 151, by norm_num⟩ 0x7000 { State.reset with DT := 5, acc := 1 / 100 } (fun t => (t.DT, t.acc))
      = some (5, 251 / 15100) := by decide +kernel

/-- T-TMR-3, and T-TMR-11: one tick however long the step; the tone at `ST = 1`. -/
theorem test_tick_and_tone :
    afterIn 1 0x7000 { State.reset with DT := 5 } (fun t => (t.DT, t.tone)) = some (4, false) ∧
    afterIn ⟨1 / 60, by norm_num⟩ 0x1200 { State.reset with DT := 1, ST := 1 } (fun t => (t.DT, t.ST, t.tone))
      = some (0, 0, true) := by decide +kernel

/-- T-KW-2, step 1: entry clears the latch. -/
theorem test_waitKey :
    after 0xF30A (State.reset.setKey 7 .down) (fun t => (t.wait, t.keyEvent, t.pc))
      = some (some 3, false, 0x200) := by decide

/-- T-KW-7, step 2. -/
theorem test_waitKey_completes :
    (answered (stepWith 0 .halt (({ State.reset with wait := some 0xF } : State).setKey 9 .down))).map
      (fun t => (t.reg 0xF, t.wait, t.keyEvent, t.pc)) = some (9, none, false, 0x202) := by decide

/-- T-KEY-3 to T-KEY-5. -/
theorem test_setKey :
    (let t := (((State.reset.setKey 5 .down).setKey 7 .down).setKey 5 .up).setKey 5 .up
     (t.key 5, t.key 7, t.pressedCount, t.lastKey, t.keyEvent)) = (.up, .down, 1, 7, true) := by decide

/-- T-MEM-2, T-MEM-5. -/
theorem test_addI :
    after 0xF11E { withRegs [(1, 0xFF)] with I := 0xF00 } (fun t => (t.I, t.pc)) = some (0xFFF, 0x202) ∧
    after 0xF11E { withRegs [(1, 1), (0xF, 7)] with I := 0xFFF } (fun t => (t.fault, t.I, t.reg 0xF))
      = some (some ⟨.memoryOutOfBounds, 0x200, some 0xF11E⟩, 0xFFF, 7) := by decide

/-- T-FONT-1. -/
theorem test_ldFont :
    after 0xF129 (withRegs [(1, 0xA)]) (fun t => t.I) = some 0x082 ∧
    after 0xF129 (withRegs [(1, 0xFF)]) (fun t => t.I) = some 0x54B := by decide

/-- T-MEM-10, T-MEM-15. -/
theorem test_storeBcd :
    after 0xF133 { withRegs [(1, 254)] with I := 0x300 } (fun t => (t.mem.readBytes 0x300 3, t.I))
      = some ([2, 5, 4], 0x300) ∧
    after 0xF133 { withRegs [(1, 0x7B)] with I := 0xFFE } (fun t => (t.mem.readBytes 0xFFE 2, t.fault.isSome))
      = some ([0, 0], true) := by decide

/-- T-MEM-20, T-MEM-25. -/
theorem test_storeRegs :
    after 0xF055 { withRegs [(0, 0xAB), (1, 0xCD)] with I := 0x300 } (fun t => (t.mem.readBytes 0x300 2, t.I))
      = some ([0xAB, 0], 0x300) ∧
    after 0xF155 { withRegs [(0, 0x77), (1, 0x88)] with I := 0xFFF } (fun t => (t.mem.read 0xFFF, t.fault.isSome))
      = some (0, true) := by decide

/-- T-MEM-30, T-MEM-34. -/
theorem test_loadRegs :
    after 0xF065 (place { withRegs [(1, 0x11)] with I := 0x300 } 0x300 [0xAB, 0xCD]) (fun t => (t.reg 0, t.reg 1))
      = some (0xAB, 0x11) ∧
    after 0xF165 { State.reset with I := 0x200 } (fun t => (t.reg 0, t.reg 1, t.I)) = some (0xF1, 0x65, 0x200) := by
  decide

/-- T-FET-2, T-FET-5. -/
theorem test_fetch :
    (answered (stepWith 0 .halt { State.reset with pc := 0xFFF })).map (fun t => t.fault)
      = some (some ⟨.memoryOutOfBounds, 0xFFF, none⟩) ∧
    after 0x6A33 { State.reset with pc := 0x205 } (fun t => (t.reg 0xA, t.pc)) = some (0x33, 0x207) := by decide

/-- T-DEC-6, and T-DEC-8 under policy halt. -/
theorem test_invalid_opcode :
    (answered (stepWith 0 .skip (place State.reset 0x200 [0xF0, 0xFF]))).map (fun t => (t.pc, t.log, t.fault))
      = some (0x202, some ⟨0xF0FF, 0x200⟩, none) ∧
    after 0x8128 State.reset (fun t => (t.pc, t.fault))
      = some (0x200, some ⟨.invalidOpcode, 0x200, some 0x8128⟩) := by decide

/-- T-HLT-1: the timer phase precedes the fetch that faults, and the halted machine then does nothing. -/
theorem test_halt :
    afterIn ⟨1 / 60, by norm_num⟩ 0x0000 { State.reset with DT := 5, ST := 5 }
      (fun t => (t.DT, t.ST, t.fault.isSome)) = some (4, 4, true) ∧
    afterIn ⟨1 / 60, by norm_num⟩ 0x6A33
      { State.reset with DT := 5, fault := some ⟨.invalidOpcode, 0x200, some 0⟩ }
      (fun t => (t.DT, t.pc, t.reg 0xA)) = some (5, 0x200, 0) := by decide +kernel

/-- T-FLG-2, step 2: `draw` is cleared before the fetch, and the faulting draw sets nothing. -/
theorem test_flags_cleared :
    after 0xD012 (place { State.reset with I := 0xFFF, draw := true, fb := 1 } 0xFFF [0x80])
      (fun t => (t.draw, t.fb, t.fault)) = some (false, 1, some ⟨.memoryOutOfBounds, 0x200, some 0xD012⟩) := by
  decide +kernel

/-- T-RST-3, T-RST-4. -/
theorem test_load :
    (answered (State.load [0xA2, 0x10])).map (fun t => (t.mem.readBytes 0x1FF 4, t.pc))
      = some ([0, 0xA2, 0x10, 0], 0x200) ∧
    State.load (List.replicate 3585 0xAA) = .fault .loadFailure := by
  refine ⟨by decide, ?_⟩
  rw [State.load, List.length_replicate]
  rfl

/-- T-RST-6: a halted machine is reset; the draw counter goes on. -/
theorem test_reload :
    (answered (transact .halt (.reset [0xA2, 0x10])
      { State.reset.raise .stackUnderflow none with pc := 0x300, drawIndex := 7 })).map
      (fun t => (t.fault, t.pc, t.mem.read 0x200, t.drawIndex)) = some (none, 0x200, 0xA2, 7) := by decide

/-- The codes of R250. -/
theorem test_fault_codes :
    Fault.loadFailure.code = 1 ∧ FaultKind.invalidOpcode.code = 2 ∧ FaultKind.stackOverflow.code = 3 ∧
    FaultKind.stackUnderflow.code = 4 ∧ FaultKind.memoryOutOfBounds.code = 5 ∧ FaultKind.keyOutOfRange.code = 6 := by
  decide

/-- T-KW-3, step 2: a key-up does not complete the wait. -/
theorem test_waitKey_keyUp :
    (answered (stepWith 0 .halt
      ({ State.reset.setKey 7 .down with wait := some 3, keyEvent := false }.setKey 7 .up))).map
      (fun t => (t.wait, t.pc, t.reg 3)) = some (some 3, 0x200, 0) := by decide

/-- The host's placed word is fetched and run by the very next step, also from a halted, waiting machine. -/
theorem test_withFetchWord :
    (answered (stepWith 0 .halt
      (({ State.reset with pc := 0xFFF, wait := some 1, fault := some ⟨.stackOverflow, 0, none⟩ } :
        State).withFetchWord 16 0x6A33))).map (fun t => (t.reg 0xA, t.pc)) = some (0x33, 0x202) := by decide

/-! ### Witnesses: for every statement with hypotheses, values that meet them, each clause at the end of its range -/

theorem witness_EncodeOfDecode : decodeWord 0xFF65 = some (.loadRegs 0xF) := by decide

theorem witness_DecodeFollowsOpcodeMap :
    decodeWord 0x812E = some (.shl 1 2) ∧
    (∃ r ∈ opcodeRows, (0x812E : Word) &&& r.mask = r.pattern) ∧ decodeWord 0x812F = none := by decide

/-- The last `pc` that can be fetched from. -/
theorem witness_StepRunsDecodedInstruction :
    ∃ s : State, s.fault = none ∧ s.wait = none ∧ s.pc.toNat ≤ 0xFFE ∧
      decodeBytes [s.mem.read s.pc.toNat, s.mem.read (s.pc.toNat + 1)] = .ok (.ldImm 0 1, []) :=
  ⟨place { State.reset with pc := 0xFFE } 0xFFE [0x60, 0x01], by decide⟩

/-- Exactly 1/60 second, and just below it (T-TMR-6, T-TMR-7). -/
theorem witness_TimerPhaseDecaysTimers :
    (∃ (dt : NNRat) (s : State), 1 / 60 = s.acc + dt) ∧ (∃ (dt : NNRat) (s : State), s.acc + dt < 1 / 60) :=
  ⟨⟨⟨1 / 150, by norm_num⟩, { State.reset with acc := 1 / 100 }, by
      show (1 / 60 : Rat) = 1 / 100 + 1 / 150
      norm_num⟩,
    ⟨⟨1 / 151, by norm_num⟩, { State.reset with acc := 1 / 100 }, by
      show (1 / 100 + 1 / 151 : Rat) < 1 / 60
      norm_num⟩⟩

theorem witness_StepTicksAtMostOnce : ∃ s : State, 0 ≤ s.acc := ⟨State.reset, le_refl _⟩

theorem witness_HaltedMachineIsInert : ∃ s : State, s.fault ≠ none :=
  ⟨State.reset.raise .stackUnderflow none, by decide⟩

theorem witness_WaitingStepPolls :
    (∃ s : State, s.fault = none ∧ s.wait = some 0xF ∧ s.keyEvent = true) ∧
    (∃ s : State, s.fault = none ∧ s.wait = some 0x0 ∧ s.keyEvent = false) :=
  ⟨⟨{ State.reset with wait := some 0xF, keyEvent := true }, by decide⟩,
    ⟨{ State.reset with wait := some 0x0 }, by decide⟩⟩

theorem witness_FetchOutOfRangeFaults :
    ∃ s : State, s.fault = none ∧ s.wait = none ∧ 0xFFF < s.pc.toNat + 1 ∧ s.pc = 0xFFF :=
  ⟨{ State.reset with pc := 0xFFF }, by decide⟩

theorem witness_InvalidOpcodeHaltsOrSkips :
    ∃ s : State, s.fault = none ∧ s.wait = none ∧ s.pc.toNat ≤ 0xFFE ∧
      decodeWord (s.mem.read s.pc.toNat ++ s.mem.read (s.pc.toNat + 1)) = none :=
  ⟨{ State.reset with pc := 0xFFE }, by decide⟩

theorem witness_JumpToSelfChangesOnlyTime :
    ∃ s : State, s.fault = none ∧ s.wait = none ∧ s.pc.toNat ≤ 0xFFE ∧
      s.mem.read s.pc.toNat ++ s.mem.read (s.pc.toNat + 1) = (0x1000 ||| s.pc : Word) :=
  ⟨place { State.reset with pc := 0xFFE } 0xFFE [0x1F, 0xFE], by decide⟩

theorem witness_TimeIsSeenOnlyThroughFX07 :
    ∃ s t t' : State, (∀ x, decodeWord s.fetchWord ≠ some (.getDT x)) ∧
      stepWith 0 .halt s = .next t ∧ stepWith 1 .halt s = .next t' ∧ t.fault = none :=
  ⟨place State.reset 0x200 [0x70, 0x00], _, _, by decide, rfl, rfl, rfl⟩

theorem witness_CallPushesItsAddress : ∃ s : State, s.sp.val < 16 ∧ s.sp.val = 15 :=
  ⟨{ State.reset with sp := 15 }, by decide⟩

theorem witness_CallAtFullStackOnlyFaults : ∃ s : State, s.sp.val = 16 := ⟨{ State.reset with sp := 16 }, rfl⟩

theorem witness_ReturnGoesPastItsCall :
    (∃ s : State, 0 < s.sp.val ∧ s.sp.val = 1) ∧ (∃ s : State, 0 < s.sp.val ∧ s.sp.val = 16) :=
  ⟨⟨{ State.reset with sp := 1 }, by decide⟩, ⟨{ State.reset with sp := 16 }, by decide⟩⟩

theorem witness_CallThenReturnRoundTrips : ∃ s : State, s.sp.val < 16 ∧ s.sp.val = 0 :=
  ⟨State.reset, by decide⟩

/-- A sprite of one row 0x80 at the origin, its pixel ON or OFF. -/
def spriteState (fb : BitVec 2048) : State := place { State.reset with I := 0x300, fb := fb } 0x300 [0x80]

/-- No rows, and fifteen rows that end at the last byte of memory (T-DSP-17). -/
theorem witness_DrawTogglesCoveredPixels_range :
    (∃ (s : State) (n : Nibble), n.toNat = 0 ∧ 0xFFF < s.I.toNat) ∧
    (∃ (s : State) (n : Nibble), s.I.toNat + n.toNat - 1 ≤ 0xFFF ∧ s.I = 0xFF1 ∧ n = 0xF) :=
  ⟨⟨{ State.reset with I := 0xFFFF }, 0, by decide⟩, ⟨{ State.reset with I := 0xFF1 }, 0xF, by decide⟩⟩

theorem witness_DrawTogglesCoveredPixels_pixels :
    (spriteState 0).spriteCovers 0 0 1 0 0 ∧ ¬(spriteState 0).spriteCovers 0 0 1 63 31 := by
  unfold State.spriteCovers
  decide

theorem witness_DrawTogglesCoveredPixels_collision :
    (∃ px < 64, ∃ py < 32, (spriteState 1).spriteCovers 0 0 1 px py ∧
      (spriteState 1).fb.getLsbD (py * 64 + px) = true) ∧
    ¬(∃ px < 64, ∃ py < 32, (spriteState 0).spriteCovers 0 0 1 px py ∧
      (spriteState 0).fb.getLsbD (py * 64 + px) = true) := by
  constructor
  · refine ⟨0, by decide, 0, by decide, ?_, by decide +kernel⟩
    unfold State.spriteCovers
    decide
  · rintro ⟨px, -, py, -, -, h⟩
    simp [spriteState, place] at h

/-- `V[x]` and `V[y]` are kept by a draw whose origin is not in VF. -/
theorem witness_DrawTwiceRestoresScreen :
    (0x300 + 1 - 1 ≤ 0xFFF) ∧ ∃ t, exec (.drw 0 1 1) (spriteState 0) = .next t ∧
      t.reg 0 = (spriteState 0).reg 0 ∧ t.reg 1 = (spriteState 0).reg 1 :=
  ⟨by decide, _, rfl, by decide, by decide⟩

theorem witness_GetPixelReadsFrame :
    (63 < 64 ∧ 31 < 32) ∧ (64 ≤ 64 ∨ 32 ≤ 0) ∧ (64 ≤ 0 ∨ 32 ≤ 32) ∧
    State.reset.getPixel 63 31 = .ok false ∧ State.reset.getPixel 64 0 = .error .pixelOutsideInterface ∧
    State.reset.getPixel 0 32 = .error .pixelOutsideInterface := by decide +kernel

theorem witness_KeySkipsTestLevel : ∃ s : State, (s.reg 0xF).toNat < 16 ∧ (s.reg 0xF).toNat = 15 :=
  ⟨withRegs [(0xF, 0xF)], by decide⟩

/-- A waiting state with a key DOWN and a key UP, and the state before the FX0A. -/
theorem witness_OnlyNewKeyDownEndsWait :
    (∃ s : State, s.fault = none ∧ s.wait = some 0xF ∧ s.keyEvent = false ∧ s.key 0x0 = .down ∧ s.key 0xF = .up) ∧
    (∃ s : State, s.fault = none ∧ s.key 0xF = .up) :=
  ⟨⟨{ State.reset.setKey 0x0 .down with wait := some 0xF, keyEvent := false }, by decide⟩, ⟨State.reset, by decide⟩⟩

theorem witness_SetKeyActsOnTransitions :
    (16 ≤ 16) ∧ (15 < 16) ∧ State.reset.keys[15] = .up ∧ (State.reset.setKey 0xF .down).keys[15] = .down := by decide

theorem witness_StepLeavesKeypadAlone : ∃ s t : State, stepWith 1 .skip s = .next t ∧ t.fault = none :=
  ⟨State.reset, _, rfl, rfl⟩

theorem witness_AddIndexWithinSpace :
    ∃ s : State, s.I.toNat + (s.reg 1).toNat ≤ 0xFFF ∧ s.I.toNat + (s.reg 1).toNat = 0xFFF :=
  ⟨{ withRegs [(1, 0xFF)] with I := 0xF00 }, by decide⟩

theorem witness_BcdStoresThreeDigits : ∃ s : State, s.mem.wf ∧ s.I.toNat + 2 ≤ 0xFFF ∧ s.I = 0xFFD :=
  ⟨{ State.reset with I := 0xFFD }, by decide⟩

theorem witness_StoreRegistersWritesBlock :
    ∃ s : State, s.mem.wf ∧ s.I.toNat + (0xF : Nibble).toNat ≤ 0xFFF ∧ s.I = 0xFF0 :=
  ⟨{ State.reset with I := 0xFF0 }, by decide⟩

theorem witness_LoadRegistersReadsBlock : ∃ s : State, s.I.toNat + (0xF : Nibble).toNat ≤ 0xFFF ∧ s.I = 0xFF0 :=
  ⟨{ State.reset with I := 0xFF0 }, by decide⟩

/-- The store of program P7, and a block whose last two bytes are the next word. -/
theorem witness_NextFetchSeesStore :
    (∃ s : State, s.mem.wf ∧ s.I.toNat + (1 : Nibble).toNat ≤ 0xFFF ∧ 0 + 1 ≤ (1 : Nibble).toNat ∧
      s.pc.toNat + 2 = s.I.toNat + 0) ∧
    (∃ s : State, s.mem.wf ∧ s.I.toNat + (0xF : Nibble).toNat ≤ 0xFFF ∧ 14 + 1 ≤ (0xF : Nibble).toNat ∧
      s.pc.toNat + 2 = s.I.toNat + 14) :=
  ⟨⟨{ State.reset with pc := 0x206, I := 0x208 }, by decide⟩,
    ⟨{ State.reset with pc := 0xFFC, I := 0xFF0 }, by decide⟩⟩

/-- The empty and the largest image, and the ends of the three kinds of address. -/
theorem witness_MemoryAtReset :
    ([] : List Byte).length ≤ 3584 ∧ (List.replicate 3584 (0xAA : Byte)).length ≤ 3584 ∧
    (∃ j : Fin 80, 0x050 = 0x050 + j.val) ∧ (∃ j : Fin 80, 0x09F = 0x050 + j.val) ∧
    (0x200 ≤ 0xFFF ∧ 0xFFF < 0x200 + (List.replicate 3584 (0xAA : Byte)).length) ∧
    (0x0A0 ≤ 0x1FF ∧ 0x1FF < 0x200) ∧ 0x200 + ([] : List Byte).length ≤ 0x200 := by
  rw [List.length_replicate]
  exact ⟨by decide, by decide, ⟨0, rfl⟩, ⟨79, rfl⟩, by decide, by decide, by decide⟩

theorem witness_StateAtReset :
    (List.replicate 3584 (0xAA : Byte)).length ≤ 3584 ∧ 3584 < (List.replicate 3585 (0xAA : Byte)).length := by
  rw [List.length_replicate, List.length_replicate]
  decide

theorem witness_ResetOfAnyMachineStartsAfresh :
    (List.replicate 3584 (0xAA : Byte)).length ≤ 3584 ∧ 3584 < (List.replicate 3585 (0xAA : Byte)).length :=
  witness_StateAtReset

theorem witness_EqualReadsEqualMemory :
    ∃ m m' : Memory, m.wf ∧ m'.wf ∧ (∀ a, m.read a = m'.read a) ∧ m = ⟨[(0x300, 1)]⟩ :=
  ⟨⟨[(0x300, 1)]⟩, Memory.write ⟨[]⟩ 0x300 1, by decide, by decide, fun _ => rfl, rfl⟩

theorem witness_FaultsExactlyWhereTheTableSays :
    (Instr.addI 1).faultOf { withRegs [(1, 1)] with I := 0xFFF } = some .memoryOutOfBounds ∧
    (Instr.addI 1).faultOf { withRegs [(1, 0)] with I := 0xFFF } = none := by decide

theorem witness_RegistersWrittenOnlyAsNamed :
    ∃ s t : State, (Instr.loadRegs 0xE).leavesSpecified s ∧ exec (.loadRegs 0xE) s = .next t ∧
      (Instr.loadRegs 0xE).writesReg 0xF = false := ⟨State.reset, _, .inl (by decide), rfl, by decide⟩

/-- The byte below the block and the byte after it. -/
theorem witness_MemoryWrittenOnlyByStores :
    ∃ s t : State, s.mem.wf ∧ (Instr.storeRegs 0xF).leavesSpecified s ∧ exec (.storeRegs 0xF) s = .next t ∧
      0x2FF < s.I.toNat ∧ s.I.toNat + (Instr.storeRegs 0xF).storedBytes ≤ 0x310 :=
  ⟨{ State.reset with I := 0x300 }, _, by decide, .inl (by decide), rfl, by decide⟩

theorem witness_SpecialStateWrittenOnlyAsNamed :
    ∃ s t : State, Instr.ret.leavesSpecified s ∧ exec .ret s = .next t ∧ (∀ nnn, Instr.ret ≠ .ldI nnn) ∧ (∀ nnn, Instr.ret ≠ .call nnn) ∧
      (∀ x, Instr.ret ≠ .setDT x) ∧ (∀ x y n, Instr.ret ≠ .drw x y n) ∧ Instr.ret ≠ .cls :=
  ⟨{ State.reset with sp := 1 }, _, .inl (by decide), rfl, nofun, nofun, nofun, nofun, nofun⟩

theorem witness_PcMovesInOneOfFiveForms :
    (∃ s t : State, (Instr.skp 0).leavesSpecified s ∧ exec (.skp 0) s = .next t) ∧
    (∃ s t : State, (Instr.call 0x300).leavesSpecified s ∧ exec (.call 0x300) s = .next t ∧ s.sp = 16) :=
  ⟨⟨State.reset, _, .inl (by decide), rfl⟩, ⟨{ State.reset with sp := 16 }, _, .inr (by decide), rfl, rfl⟩⟩

/-- A state with a frame in use, a key DOWN and a part of a tick elapsed. -/
def busy : State :=
  { State.reset.setKey 3 .down with
    I := 0xFFF, pc := 0xFFE, sp := 1, stack := State.reset.stack.set 0 0xFFE, acc := 1 / 100 }

theorem busy_inv : busy.Inv where
  mem_wf := by decide
  i_bound := by decide
  pc_bound := by decide
  acc_nonneg := by decide +kernel
  acc_bound := by decide +kernel
  count_eq := by decide
  frames := by decide
  wait_pc := by decide
  fault_pc := nofun
  fault_no_wait := by decide

theorem witness_StepKeepsInvariants : ∃ s t : State, s.Inv ∧ step s = .next t := ⟨busy, _, busy_inv, rfl⟩

theorem witness_SetKeyKeepsInvariants : ∃ s : State, s.Inv ∧ s.key 3 = .down ∧ s.key 4 = .up :=
  ⟨busy, busy_inv, by decide⟩

theorem witness_ReachableStatesHaveInvariants :
    ∃ s : State, Reachable .halt s ∧ s.pressedCount = 1 :=
  ⟨_, .transact (.setKey 5 .down) _ _ (.reset [0xA2, 0x10] _ rfl) rfl, rfl⟩

end Sys2Proof.Tests
end

/-! ## The invariants along every run

`State.Inv` holds after RESET and every transaction keeps it (`00_scope.md` R7, R8). The rules of the state operations
come first, then the instructions, then the step, SET_KEY and RESET. -/

namespace Sys2Proof.Machine

variable {s t : State}

/-! ### The machine while an instruction runs -/

/-- What holds while a fetched instruction runs: the invariants, no fault, no key-wait, and a `pc` the fetch accepted
(`40_step_dispatch.md` R121, R124, R125). -/
structure State.Running (s : State) : Prop where
  inv : s.Inv
  no_fault : s.fault = none
  no_wait : s.wait = none
  pc_fetched : s.pc.toNat ≤ 0xFFE

namespace State.Running

/-! Operations in the middle of an instruction: it goes on running. -/

/-- The fields an instruction writes and no invariant reads may take any value. -/
theorem writeFree (h : s.Running) {V : Vector Byte 16} {DT ST : Byte} {fb : BitVec 2048} {draw clear : Bool}
    {drawIndex : Nat} {log : Option LogEvent} :
    { s with
      V := V, DT := DT, ST := ST, fb := fb, draw := draw, clear := clear, drawIndex := drawIndex,
      log := log }.Running :=
  { h with inv := { h.inv with } }

theorem setReg (h : s.Running) (x : Nibble) (v : Byte) : (s.setReg x v).Running := h.writeFree

theorem setFlag (h : s.Running) (c : Bool) : (s.setFlag c).Running := h.setReg VF (flagByte c)

theorem setResult (h : s.Running) (x : Nibble) (rc : Byte × Bool) : (s.setResult x rc).Running :=
  (h.setReg x rc.1).setFlag rc.2

theorem setI (h : s.Running) {v : Word} (hv : v.toNat ≤ 0xFFF) : (s.setI v).Running :=
  { h with inv := { h.inv with i_bound := hv } }

theorem writeBytes (h : s.Running) (a : Nat) (l : List Byte) : { s with mem := s.mem.writeBytes a l }.Running :=
  { h with inv := { h.inv with mem_wf := Memory.writeBytes_wf h.inv.mem_wf a l } }

/-- A CALL pushes the `pc` it was fetched from, so the new frame is bounded as the others are (R143). -/
theorem push (h : s.Running) (hs : s.sp.val < 16) :
    { s with stack := s.stack.set s.sp.val s.pc, sp := ⟨s.sp.val + 1, Nat.succ_lt_succ hs⟩ }.Running := by
  refine { h with inv := { h.inv with frames := fun j hj hlt => ?_ } }
  rw [Vector.getElem_set]
  split_ifs with hjs
  · exact h.pc_fetched
  · exact h.inv.frames j hj (by simp only at hlt; omega)

/-- The frames that stay in use after a pop were in use before it (R141). -/
theorem pop (h : s.Running) {sp : Fin 17} (hsp : sp.val ≤ s.sp.val) : { s with sp := sp }.Running :=
  { h with inv := { h.inv with frames := fun j hj hlt => h.inv.frames j hj (Nat.lt_of_lt_of_le hlt hsp) } }

/-! Operations that end an instruction: the invariants hold again. -/

theorem setPc_inv (h : s.Running) {v : Word} (hv : v.toNat ≤ 0x10FE) : (s.setPc v).Inv :=
  { h.inv with
    pc_bound := hv
    wait_pc := by simp [h.no_wait]
    fault_pc := by simp [h.no_fault] }

theorem advance_inv (h : s.Running) : s.advance.Inv :=
  h.setPc_inv (by have := h.pc_fetched; bv_omega)

theorem skipWhen_inv (h : s.Running) (c : Bool) : (s.skipWhen c).Inv :=
  h.setPc_inv (by have := h.pc_fetched; split <;> bv_omega)

theorem raise_inv (h : s.Running) (k : FaultKind) (o : Option Word) : (s.raise k o).Inv :=
  { h.inv with
    fault_pc := by simp
    fault_no_wait := fun _ => h.no_wait }

theorem invalidOpcode_inv (h : s.Running) (policy : Policy) (w : Word) : (s.invalidOpcode policy w).Inv := by
  cases policy with
  | halt => exact h.raise_inv .invalidOpcode (some w)
  | skip =>
    have hlog : { s with log := some ⟨w, s.pc⟩ }.Running := h.writeFree
    exact hlog.advance_inv

/-- The wait begins at the FX0A that was fetched (R215). -/
theorem beginWait_inv (h : s.Running) (x : Nibble) : { s with wait := some x, keyEvent := false }.Inv :=
  { h.inv with
    wait_pc := fun _ => h.pc_fetched
    fault_no_wait := by simp [h.no_fault] }

end State.Running

/-! ### Instructions -/

theorem zextAddr_le (nnn : Addr) : (zextAddr nnn).toNat ≤ 0xFFF := by
  simp only [zextAddr]
  bv_omega

/-- The highest target of BNNN is 0xFFF + 0xFF, the bound of `pc` (R148, R25). -/
theorem zextAddr_add_zextByte_le (nnn : Addr) (v : Byte) : (zextAddr nnn + zextByte v).toNat ≤ 0x10FE := by
  simp only [zextAddr, zextByte]
  bv_omega

theorem glyphAddr_le (v : Byte) : (glyphAddr v).toNat ≤ 0xFFF := by
  have hv := v.isLt
  rw [glyphAddr, Config.fontBase, Config.glyphBytes, BitVec.toNat_ofNat]
  exact (Nat.mod_le ..).trans (by omega)

/-- A return goes past a CALL that was fetched (R141). -/
theorem execRet_inv (h : s.Running) : ∃ t, execRet s = .next t ∧ t.Inv := by
  rcases execRet_cases s with ⟨ra, hs, hra, he⟩ | ⟨-, he⟩
  · obtain ⟨hj, rfl⟩ := Vector.getElem?_eq_some_iff.1 hra
    have hframe := h.inv.frames (s.sp.val - 1) hj (by omega)
    have hpop := h.pop (sp := ⟨s.sp.val - 1, by omega⟩) (Nat.sub_le ..)
    exact ⟨_, he, hpop.setPc_inv (v := s.stack[s.sp.val - 1] + 2) (by bv_omega)⟩
  · exact ⟨_, he, h.raise_inv ..⟩

theorem execCall_inv (h : s.Running) (nnn : Addr) : ∃ t, execCall nnn s = .next t ∧ t.Inv := by
  rcases execCall_cases s nnn with ⟨hs, he⟩ | ⟨-, he⟩
  · exact ⟨_, he, (h.push hs).setPc_inv ((zextAddr_le nnn).trans (by decide))⟩
  · exact ⟨_, he, h.raise_inv ..⟩

theorem execSkp_inv (h : s.Running) (x : Nibble) : ∃ t, execSkp x s = .next t ∧ t.Inv := by
  rcases execSkp_cases s x with ⟨_, he⟩ | ⟨-, he⟩
  · exact ⟨_, he, h.skipWhen_inv _⟩
  · exact ⟨_, he, h.raise_inv ..⟩

theorem execSknp_inv (h : s.Running) (x : Nibble) : ∃ t, execSknp x s = .next t ∧ t.Inv := by
  rcases execSknp_cases s x with ⟨_, he⟩ | ⟨-, he⟩
  · exact ⟨_, he, h.skipWhen_inv _⟩
  · exact ⟨_, he, h.raise_inv ..⟩

theorem execDrw_inv (h : s.Running) (x y n : Nibble) : ∃ t, execDrw x y n s = .next t ∧ t.Inv := by
  rcases execDrw_cases s x y n with ⟨-, he⟩ | ⟨-, -, he⟩
  · exact ⟨_, he, (h.writeFree.setFlag _).advance_inv⟩
  · exact ⟨_, he, h.raise_inv ..⟩

/-- The sum is stored only when it is an address (R230). -/
theorem execAddI_inv (h : s.Running) (x : Nibble) : ∃ t, execAddI x s = .next t ∧ t.Inv := by
  rcases execAddI_cases s x with ⟨hle, he⟩ | ⟨-, he⟩
  · exact ⟨_, he, (h.setI (by rw [BitVec.toNat_ofNat]; omega)).advance_inv⟩
  · exact ⟨_, he, h.raise_inv ..⟩

theorem execStoreBcd_inv (h : s.Running) (x : Nibble) : ∃ t, execStoreBcd x s = .next t ∧ t.Inv := by
  rcases execStoreBcd_cases s x with ⟨-, he⟩ | ⟨-, he⟩
  · exact ⟨_, he, (h.writeBytes s.I.toNat (bcdDigits (s.reg x))).advance_inv⟩
  · exact ⟨_, he, h.raise_inv ..⟩

theorem execStoreRegs_inv (h : s.Running) (x : Nibble) : ∃ t, execStoreRegs x s = .next t ∧ t.Inv := by
  rcases execStoreRegs_cases s x with ⟨-, he⟩ | ⟨-, he⟩
  · exact ⟨_, he, (h.writeBytes s.I.toNat (s.regBlock x)).advance_inv⟩
  · exact ⟨_, he, h.raise_inv ..⟩

theorem execLoadRegs_inv (h : s.Running) (x : Nibble) : ∃ t, execLoadRegs x s = .next t ∧ t.Inv := by
  rcases execLoadRegs_cases s x with ⟨-, he⟩ | ⟨-, he⟩
  · have hV : { s with V := (s.setRegBlock 0 (s.mem.readBytes s.I.toNat (x.toNat + 1))).V }.Running := h.writeFree
    exact ⟨_, he, hV.advance_inv⟩
  · exact ⟨_, he, h.raise_inv ..⟩

/-- Every instruction that runs answers a next state that has the invariants. -/
theorem exec_inv (h : s.Running) (i : Instr) : ∃ t, exec i s = .next t ∧ t.Inv := by
  cases i with
  | ret => exact execRet_inv h
  | call nnn => exact execCall_inv h nnn
  | skp x => exact execSkp_inv h x
  | sknp x => exact execSknp_inv h x
  | drw x y n => exact execDrw_inv h x y n
  | addI x => exact execAddI_inv h x
  | storeBcd x => exact execStoreBcd_inv h x
  | storeRegs x => exact execStoreRegs_inv h x
  | loadRegs x => exact execLoadRegs_inv h x
  | jp nnn => exact ⟨_, rfl, h.setPc_inv ((zextAddr_le nnn).trans (by decide))⟩
  | jpV0 nnn => exact ⟨_, rfl, h.setPc_inv (zextAddr_add_zextByte_le ..)⟩
  | ldI nnn => exact ⟨_, rfl, (h.setI (zextAddr_le nnn)).advance_inv⟩
  | ldFont x => exact ⟨_, rfl, (h.setI (glyphAddr_le _)).advance_inv⟩
  | waitKey x => exact ⟨_, rfl, h.beginWait_inv x⟩
  | seImm | sneImm | seReg | sneReg => exact ⟨_, rfl, h.skipWhen_inv _⟩
  | addReg | subReg | shr | subnReg | shl => exact ⟨_, rfl, (h.setResult ..).advance_inv⟩
  | cls | ldImm | addImm | ldReg | orReg | andReg | xorReg | rnd | getDT | setDT | setST =>
    exact ⟨_, rfl, h.writeFree.advance_inv⟩

/-! ### The step -/

/-- Every state has less than one tick's time in the accumulator after the timer phase (R201, R28). -/
theorem State.Inv.beginStep (hi : s.Inv) (dt : NNRat) : (s.beginStep dt).Inv := by
  refine { hi with acc_nonneg := ?_, acc_bound := ?_ }
  all_goals rw [State.beginStep_acc, State.ticks]; split_ifs with ht
  · exact le_rfl
  · exact add_nonneg hi.acc_nonneg dt.cast_nonneg
  · norm_num [Config.tickPeriod]
  · exact not_le.1 (of_decide_eq_false (Bool.eq_false_iff.2 ht))

/-- A poll that completes the wait leaves the FX0A behind (R216). -/
theorem State.Inv.waitPoll (hi : s.Inv) (hf : s.fault = none) {x : Nibble} (hw : s.wait = some x) :
    (s.waitPoll x).Inv := by
  rcases hk : s.keyEvent with _ | _
  · rwa [State.waitPoll_quiet x hk]
  · have hrun : { s with keyEvent := false, wait := none }.Running :=
      { inv := { hi with wait_pc := nofun, fault_no_wait := fun _ => rfl }
        no_fault := hf
        no_wait := rfl
        pc_fetched := hi.wait_pc (by simp [hw]) }
    rw [State.waitPoll_event x hk]
    exact (hrun.setReg ..).advance_inv

/-- A step keeps the invariants, for every delta and under either policy. -/
theorem stepWith_inv {dt : NNRat} {policy : Policy} (hi : s.Inv) (h : stepWith dt policy s = .next t) : t.Inv := by
  have hb := hi.beginStep dt
  rcases stepWith_cases h with ⟨-, ho⟩ | ⟨hf, x, hw, ho⟩ | ⟨hf, hw, -, ho⟩ | ⟨hf, hw, hpc, -, ho⟩ |
    ⟨hf, hw, hpc, i, -, ho⟩
  · cases ho
    exact hi
  · cases ho
    exact hb.waitPoll hf hw
  · cases ho
    exact { hb with fault_pc := by simp, fault_no_wait := fun _ => hw }
  · cases ho
    exact State.Running.invalidOpcode_inv ⟨hb, hf, hw, hpc⟩ policy _
  · obtain ⟨u, hu, hinv⟩ := exec_inv ⟨hb, hf, hw, hpc⟩ i
    cases ho.trans hu
    exact hinv

/-! ### SET_KEY and RESET -/

/-- A key-up event (R211). -/
theorem State.setKey_up {k : Nibble} (h : s.key k = .down) :
    s.setKey k .up = { s with keys := s.keys.set k.toNat .up k.isLt, pressedCount := s.pressedCount - 1 } := by
  simp only [State.setKey, h]

/-- A key set to the state it has is no event (R211, D23). -/
theorem State.setKey_same {k : Nibble} {st : KeyState} (h : s.key k = st) : s.setKey k st = s := by
  cases st <;> simp only [State.setKey, h]

/-- The number of keys DOWN after one key is set: that key is counted anew (R29). -/
theorem State.keysDown_of_keys_set (s : State) (k : Nibble) (st : KeyState)
    (h : t.keys = s.keys.set k.toNat st k.isLt) :
    t.keysDown = s.keysDown - (if s.key k == .down then 1 else 0) + if st == .down then 1 else 0 := by
  rw [State.keysDown, h, Vector.count_toList, Vector.count_set, State.keysDown, Vector.count_toList, State.key]

/-- SET_KEY keeps the invariants: the count follows the one key that changes (R211, R29). -/
theorem State.Inv.setKey (hi : s.Inv) (k : Nibble) (st : KeyState) : (s.setKey k st).Inv := by
  cases st with
  | down =>
    cases hk : s.key k with
    | down => rwa [State.setKey_same hk]
    | up =>
      rw [State.setKey_down s k hk]
      exact { hi with count_eq := by rw [State.keysDown_of_keys_set s k .down rfl, hk, hi.count_eq]; rfl }
  | up =>
    cases hk : s.key k with
    | up => rwa [State.setKey_same hk]
    | down =>
      rw [State.setKey_up hk]
      exact { hi with count_eq := by rw [State.keysDown_of_keys_set s k .up rfl, hk, hi.count_eq]; rfl }

/-- The reset values have every invariant (R40). -/
theorem State.reset_inv : State.reset.Inv where
  mem_wf := Memory.empty_wf
  i_bound := by decide
  pc_bound := by decide
  acc_nonneg := le_rfl
  acc_bound := by norm_num [State.reset, Config.tickPeriod]
  count_eq := by decide
  frames := nofun
  wait_pc := nofun
  fault_pc := nofun
  fault_no_wait := nofun

/-- A new machine has the invariants, whatever its image (R281). -/
theorem State.load_inv {image : List Byte} (h : State.load image = .next t) : t.Inv := by
  rcases State.load_cases image with ⟨-, hl⟩ | ⟨-, hl⟩
  · cases hl.symm.trans h
    exact { State.reset_inv with mem_wf := Memory.writeBytes_wf Memory.empty_wf .. }
  · cases hl.symm.trans h

/-- RESET of any machine, one without the invariants too, gives a machine that has them (R280). -/
theorem State.reload_inv {image : List Byte} (h : s.reload image = .next t) : t.Inv := by
  unfold State.reload at h
  split at h
  case h_1 u hl =>
    cases h
    exact { State.load_inv hl with }
  all_goals cases h

/-! ### Runs -/

/-- Every transaction keeps the invariants (R8). -/
theorem transact_inv {policy : Policy} {a : Transaction} (hi : s.Inv) (h : transact policy a s = .next t) :
    t.Inv := by
  cases a with
  | reset image => exact State.reload_inv h
  | step dt => exact stepWith_inv hi h
  | setKey k st =>
    simp only [transact, State.setKeyNumber] at h
    split_ifs at h
    cases h
    exact hi.setKey ..

/-- Settles O60, by induction on the run: RESET gives the invariants and every transaction keeps them. -/
theorem reachableStatesHaveInvariants : Obligations.ReachableStatesHaveInvariants := by
  intro policy s hs
  induction hs with
  | reset image s hl => exact State.load_inv hl
  | transact a s s' _ ht ih => exact transact_inv ih ht

end Sys2Proof.Machine

/-! ## What each instruction may write

`Effect` says once what an instruction can do to the state, the raised fault included; `exec_effect` ties it to `exec`.
The frames of the access matrix (`10_state.md` R43) and the forms of `pc` (R25) are case analyses of it. -/

namespace Sys2Proof.Machine

variable {s t : State} {i : Instr}

/-! ### Rules of the operations -/

/-- A register that is not the destination keeps its value; the premise is `Instr.writesReg` of an instruction with the
destination `x`. -/
theorem State.reg_setReg_other {x r : Nibble} (h : (r == x) = false) (v : Byte) : (s.setReg x v).reg r = s.reg r := by
  rw [State.reg_setReg, if_neg (beq_eq_false_iff_ne.1 h)]

/-- As `State.reg_setReg_other`, for the destinations `x` and VF of a result with its flag. -/
theorem State.reg_setResult_other {x r : Nibble} (h : (r == x || r == 0xF) = false) (rc : Byte × Bool) :
    (s.setResult x rc).reg r = s.reg r := by
  obtain ⟨hx, hF⟩ := Bool.or_eq_false_iff.1 h
  rw [State.setResult, State.setFlag, State.reg_setReg_other (x := VF) hF, State.reg_setReg_other hx]

/-- A register above `x` is not loaded by FX65 (R234). -/
theorem State.reg_setRegBlock_above {x r : Nibble} (h : ¬ r.toNat ≤ x.toNat) (a : Nat) :
    (s.setRegBlock 0 (s.mem.readBytes a (x.toNat + 1))).reg r = s.reg r := by
  have hx := x.isLt
  rw [State.reg_setRegBlock _ _ _ _ (by rw [Memory.readBytes_length]; omega),
    dif_neg (by rw [Memory.readBytes_length]; omega)]

theorem zextAddr_toNat (nnn : Addr) : (zextAddr nnn).toNat = nnn.toNat := by
  simp only [zextAddr]
  bv_omega

/-- The target of BNNN is an integer sum: it never reaches 16 bits (R148). -/
theorem zextAddr_add_zextByte_toNat (nnn : Addr) (v : Byte) :
    (zextAddr nnn + zextByte v).toNat = nnn.toNat + v.toNat := by
  simp only [zextAddr, zextByte]
  bv_omega

/-! ### The effect of an instruction -/

/-- What an instruction may do to the state `s`, by the kind of state it writes. Values that no frame speaks of, as the
new index or the drawn picture, are left open. -/
inductive Effect (s : State) : Instr → State → Prop
  /-- Registers that the access matrix names, and the source of random bytes (R43, R164). -/
  | registers {i : Instr} {V : Vector Byte 16} {drawIndex : Nat}
      (hV : ∀ r, i.writesReg r = false → { s with V := V }.reg r = s.reg r) :
      Effect s i { s with V := V, drawIndex := drawIndex, pc := s.pc + 2 }
  /-- The index register. -/
  | index {i : Instr} {v : Word} (hi : (∃ nnn, i = .ldI nnn) ∨ (∃ x, i = .addI x) ∨ ∃ x, i = .ldFont x) :
      Effect s i (s.setI v).advance
  /-- Memory, at `I` and on (R232, R233). -/
  | store {i : Instr} {bytes : List Byte} (hlen : bytes.length = i.storedBytes) :
      Effect s i { s with mem := s.mem.writeBytes s.I.toNat bytes, pc := s.pc + 2 }
  /-- `pc` alone, past this instruction or past the next one too (R140). -/
  | skip {i : Instr} {c : Bool} : Effect s i (s.skipWhen c)
  | jp {nnn : Addr} : Effect s (.jp nnn) (s.setPc (zextAddr nnn))
  | jpV0 {nnn : Addr} : Effect s (.jpV0 nnn) (s.setPc (zextAddr nnn + zextByte (s.reg 0)))
  | call {nnn : Addr} (stack : Vector Word 16) (sp : Fin 17) :
      Effect s (.call nnn) { s with stack := stack, sp := sp, pc := zextAddr nnn }
  | ret {ra : Word} (sp : Fin 17) (hra : s.stack[sp.val]? = some ra) :
      Effect s .ret { s with sp := sp, pc := ra + 2 }
  | setDT {x : Nibble} : Effect s (.setDT x) { s with DT := s.reg x }.advance
  | setST {x : Nibble} : Effect s (.setST x) { s with ST := s.reg x }.advance
  | waitKey {x : Nibble} : Effect s (.waitKey x) { s with wait := some x, keyEvent := false }
  | cls : Effect s .cls { s with fb := 0, clear := true }.advance
  | drw {x y n : Nibble} (fb : BitVec 2048) (c : Bool) :
      Effect s (.drw x y n) ({ s with fb := fb, draw := true }.setFlag c).advance
  /-- The fault record alone (R252, D8). -/
  | fault {i : Instr} {k : FaultKind} (hk : i.faultOf s = some k) : Effect s i (s.raise k (some (encode i)))

theorem execRet_effect (s : State) : ∃ t, execRet s = .next t ∧ Effect s .ret t := by
  rcases execRet_cases s with ⟨ra, hs, hra, he⟩ | ⟨hs, he⟩
  · exact ⟨_, he, .ret ⟨s.sp.val - 1, by omega⟩ hra⟩
  · exact ⟨_, he, .fault (if_pos hs)⟩

theorem execCall_effect (nnn : Addr) (s : State) : ∃ t, execCall nnn s = .next t ∧ Effect s (.call nnn) t := by
  rcases execCall_cases s nnn with ⟨_, he⟩ | ⟨hs, he⟩
  · exact ⟨_, he, .call ..⟩
  · exact ⟨_, he, .fault (if_pos hs)⟩

theorem execSkp_effect (x : Nibble) (s : State) : ∃ t, execSkp x s = .next t ∧ Effect s (.skp x) t := by
  rcases execSkp_cases s x with ⟨_, he⟩ | ⟨hx, he⟩
  · exact ⟨_, he, .skip⟩
  · exact ⟨_, he, .fault (if_pos hx)⟩

theorem execSknp_effect (x : Nibble) (s : State) : ∃ t, execSknp x s = .next t ∧ Effect s (.sknp x) t := by
  rcases execSknp_cases s x with ⟨_, he⟩ | ⟨hx, he⟩
  · exact ⟨_, he, .skip⟩
  · exact ⟨_, he, .fault (if_pos hx)⟩

theorem execDrw_effect (x y n : Nibble) (s : State) :
    ∃ t, execDrw x y n s = .next t ∧ Effect s (.drw x y n) t := by
  rcases execDrw_cases s x y n with ⟨-, he⟩ | ⟨hn, hI, he⟩
  · exact ⟨_, he, .drw ..⟩
  · exact ⟨_, he, .fault (if_pos ⟨hn, by omega⟩)⟩

theorem execAddI_effect (x : Nibble) (s : State) : ∃ t, execAddI x s = .next t ∧ Effect s (.addI x) t := by
  rcases execAddI_cases s x with ⟨-, he⟩ | ⟨hI, he⟩
  · exact ⟨_, he, .index (.inr (.inl ⟨x, rfl⟩))⟩
  · exact ⟨_, he, .fault (if_pos hI)⟩

theorem execStoreBcd_effect (x : Nibble) (s : State) :
    ∃ t, execStoreBcd x s = .next t ∧ Effect s (.storeBcd x) t := by
  rcases execStoreBcd_cases s x with ⟨-, he⟩ | ⟨hI, he⟩
  · exact ⟨_, he, .store rfl⟩
  · exact ⟨_, he, .fault (if_pos hI)⟩

theorem execStoreRegs_effect (x : Nibble) (s : State) :
    ∃ t, execStoreRegs x s = .next t ∧ Effect s (.storeRegs x) t := by
  rcases execStoreRegs_cases s x with ⟨-, he⟩ | ⟨hI, he⟩
  · exact ⟨_, he, .store (State.regBlock_length s x)⟩
  · exact ⟨_, he, .fault (if_pos hI)⟩

theorem execLoadRegs_effect (x : Nibble) (s : State) :
    ∃ t, execLoadRegs x s = .next t ∧ Effect s (.loadRegs x) t := by
  rcases execLoadRegs_cases s x with ⟨-, he⟩ | ⟨hI, he⟩
  · exact ⟨_, he, .registers fun r hr => State.reg_setRegBlock_above (of_decide_eq_false hr) _⟩
  · exact ⟨_, he, .fault (if_pos hI)⟩

/-- Every instruction answers a next state, and `Effect` says what it may have written. -/
theorem exec_effect (i : Instr) (s : State) : ∃ t, exec i s = .next t ∧ Effect s i t := by
  cases i with
  | ret => exact execRet_effect s
  | call nnn => exact execCall_effect nnn s
  | skp x => exact execSkp_effect x s
  | sknp x => exact execSknp_effect x s
  | drw x y n => exact execDrw_effect x y n s
  | addI x => exact execAddI_effect x s
  | storeBcd x => exact execStoreBcd_effect x s
  | storeRegs x => exact execStoreRegs_effect x s
  | loadRegs x => exact execLoadRegs_effect x s
  | jp => exact ⟨_, rfl, .jp⟩
  | jpV0 => exact ⟨_, rfl, .jpV0⟩
  | ldI nnn => exact ⟨_, rfl, .index (.inl ⟨nnn, rfl⟩)⟩
  | ldFont x => exact ⟨_, rfl, .index (.inr (.inr ⟨x, rfl⟩))⟩
  | setDT => exact ⟨_, rfl, .setDT⟩
  | setST => exact ⟨_, rfl, .setST⟩
  | waitKey => exact ⟨_, rfl, .waitKey⟩
  | cls => exact ⟨_, rfl, .cls⟩
  | seImm | sneImm | seReg | sneReg => exact ⟨_, rfl, .skip⟩
  | ldImm | addImm | ldReg | orReg | andReg | xorReg | rnd | getDT =>
    exact ⟨_, rfl, .registers fun _ hr => State.reg_setReg_other hr _⟩
  | addReg | subReg | shr | subnReg | shl =>
    exact ⟨_, rfl, .registers fun _ hr => State.reg_setResult_other hr _⟩

theorem Effect.of_exec (h : exec i s = .next t) : Effect s i t := by
  obtain ⟨u, hu, he⟩ := exec_effect i s
  cases hu.symm.trans h
  exact he

/-! ### Frames: one lemma per kind of state, the instructions that may write it being the premise

A fault writes its record alone (D8), so the frames need no `Instr.leavesSpecified`; the forms of `pc` do. -/

namespace Effect

theorem reg_eq (h : Effect s i t) {r : Nibble} (hr : i.writesReg r = false) : t.reg r = s.reg r := by
  cases h with
  | registers hV => exact hV r hr
  | drw fb c => exact State.reg_setReg_other (s := { s with fb := fb, draw := true }) hr (flagByte c)
  | _ => rfl

theorem read_eq (h : Effect s i t) (hm : s.mem.wf) {a : Nat}
    (ha : a < s.I.toNat ∨ s.I.toNat + i.storedBytes ≤ a) : t.mem.read a = s.mem.read a := by
  cases h with
  | store hlen => exact Memory.read_writeBytes_outside hm (by rwa [hlen])
  | _ => rfl

theorem I_eq (h : Effect s i t) (h1 : ∀ nnn, i ≠ .ldI nnn) (h2 : ∀ x, i ≠ .addI x) (h3 : ∀ x, i ≠ .ldFont x) :
    t.I = s.I := by
  cases h with
  | index hi =>
    rcases hi with ⟨nnn, hi⟩ | ⟨x, hi⟩ | ⟨x, hi⟩
    · exact absurd hi (h1 nnn)
    · exact absurd hi (h2 x)
    · exact absurd hi (h3 x)
  | _ => rfl

theorem stack_eq (h : Effect s i t) (hi : ∀ nnn, i ≠ .call nnn) : t.stack = s.stack := by
  cases h with
  | call => exact absurd rfl (hi _)
  | _ => rfl

theorem sp_eq (h : Effect s i t) (hc : ∀ nnn, i ≠ .call nnn) (hr : i ≠ .ret) : t.sp = s.sp := by
  cases h with
  | call => exact absurd rfl (hc _)
  | ret => exact absurd rfl hr
  | _ => rfl

theorem DT_eq (h : Effect s i t) (hi : ∀ x, i ≠ .setDT x) : t.DT = s.DT := by
  cases h with
  | setDT => exact absurd rfl (hi _)
  | _ => rfl

theorem ST_eq (h : Effect s i t) (hi : ∀ x, i ≠ .setST x) : t.ST = s.ST := by
  cases h with
  | setST => exact absurd rfl (hi _)
  | _ => rfl

theorem wait_eq (h : Effect s i t) (hi : ∀ x, i ≠ .waitKey x) : t.wait = s.wait ∧ t.keyEvent = s.keyEvent := by
  cases h with
  | waitKey => exact absurd rfl (hi _)
  | _ => exact ⟨rfl, rfl⟩

theorem draw_eq (h : Effect s i t) (hi : ∀ x y n, i ≠ .drw x y n) : t.draw = s.draw := by
  cases h with
  | drw => exact absurd rfl (hi _ _ _)
  | _ => rfl

theorem fb_eq (h : Effect s i t) (hd : ∀ x y n, i ≠ .drw x y n) (hc : i ≠ .cls) : t.fb = s.fb := by
  cases h with
  | drw => exact absurd rfl (hd _ _ _)
  | cls => exact absurd rfl hc
  | _ => rfl

theorem clear_eq (h : Effect s i t) (hi : i ≠ .cls) : t.clear = s.clear := by
  cases h with
  | cls => exact absurd rfl hi
  | _ => rfl

/-- No instruction writes the accumulator or the tone: the timer phase does (R201, R202). -/
theorem acc_tone_eq (h : Effect s i t) : t.acc = s.acc ∧ t.tone = s.tone := by
  cases h <;> exact ⟨rfl, rfl⟩

/-- No instruction writes the keys: SET_KEY does (R29). -/
theorem keypad_eq (h : Effect s i t) :
    t.keys = s.keys ∧ t.pressedCount = s.pressedCount ∧ t.lastKey = s.lastKey := by
  cases h <;> exact ⟨rfl, rfl, rfl⟩

end Effect

/-- A wait poll reads the last key and leaves the keys alone (R216). -/
theorem State.waitPoll_keypad_eq (s : State) (x : Nibble) :
    (s.waitPoll x).keys = s.keys ∧ (s.waitPoll x).pressedCount = s.pressedCount ∧
      (s.waitPoll x).lastKey = s.lastKey := by
  rcases hk : s.keyEvent with _ | _
  · rw [State.waitPoll_quiet x hk]
    exact ⟨rfl, rfl, rfl⟩
  · rw [State.waitPoll_event x hk]
    exact ⟨rfl, rfl, rfl⟩

theorem State.invalidOpcode_keypad_eq (s : State) (policy : Policy) (w : Word) :
    (s.invalidOpcode policy w).keys = s.keys ∧ (s.invalidOpcode policy w).pressedCount = s.pressedCount ∧
      (s.invalidOpcode policy w).lastKey = s.lastKey := by
  cases policy <;> exact ⟨rfl, rfl, rfl⟩

/-! ### Reset values -/

@[simp] theorem State.reset_reg (r : Nibble) : State.reset.reg r = 0 := Vector.getElem_replicate ..

@[simp] theorem State.reset_key (k : Nibble) : State.reset.key k = .up := Vector.getElem_replicate ..

/-! ### The obligations of the state -/

/-- Settles O58: `stepWith_inv` at the delta and the policy of this machine. -/
theorem stepKeepsInvariants : Obligations.StepKeepsInvariants := fun _ _ hi h => stepWith_inv hi h

/-- Settles O41: the keypad's frame of each phase that may end a step. -/
theorem stepLeavesKeypadAlone : Obligations.StepLeavesKeypadAlone := by
  intro dt policy s t h _
  rcases stepWith_cases h with ⟨-, ho⟩ | ⟨-, x, -, ho⟩ | ⟨-, -, -, ho⟩ | ⟨-, -, -, -, ho⟩ | ⟨-, -, -, i, -, ho⟩
  · cases ho
    exact ⟨rfl, rfl, rfl⟩
  · cases ho
    exact (s.beginStep dt).waitPoll_keypad_eq x
  · cases ho
    exact ⟨rfl, rfl, rfl⟩
  · cases ho
    exact (s.beginStep dt).invalidOpcode_keypad_eq policy _
  · exact (Effect.of_exec ho.symm).keypad_eq

/-- Settles O53. -/
theorem registersWrittenOnlyAsNamed : Obligations.RegistersWrittenOnlyAsNamed :=
  fun _ _ _ _ _ h hr => (Effect.of_exec h).reg_eq hr

/-- Settles O54. -/
theorem memoryWrittenOnlyByStores : Obligations.MemoryWrittenOnlyByStores :=
  fun _ _ _ _ hm _ h ha => (Effect.of_exec h).read_eq hm ha

/-- Settles O55: the frame lemmas of `Effect`, in the order of the statement. -/
theorem specialStateWrittenOnlyAsNamed : Obligations.SpecialStateWrittenOnlyAsNamed := by
  intro i s t _ h
  have he := Effect.of_exec h
  obtain ⟨hacc, htone⟩ := he.acc_tone_eq
  exact ⟨he.I_eq, he.stack_eq, he.sp_eq, he.DT_eq, he.ST_eq, he.wait_eq, fun hd => ⟨he.draw_eq hd, he.fb_eq hd⟩,
    he.clear_eq, hacc, htone, he.keypad_eq⟩

/-- Settles O56: the form of `pc` of each effect; a fault that leaves it is StackOverflow, by the premise. -/
theorem pcMovesInOneOfFiveForms : Obligations.PcMovesInOneOfFiveForms := by
  intro i s t hspec h
  cases Effect.of_exec h with
  | @skip _ c =>
    cases c with
    | false => exact .inl rfl
    | true => exact .inr (.inl rfl)
  | @jp nnn => exact .inr (.inr (.inl ⟨nnn, .inl rfl, zextAddr_toNat nnn⟩))
  | @call nnn => exact .inr (.inr (.inl ⟨nnn, .inr rfl, zextAddr_toNat nnn⟩))
  | @jpV0 nnn => exact .inr (.inr (.inr (.inl ⟨nnn, rfl, zextAddr_add_zextByte_toNat ..⟩)))
  | @ret ra _ hra => exact .inr (.inr (.inr (.inr (.inl ⟨ra, rfl, hra, rfl⟩))))
  | @waitKey x => exact .inr (.inr (.inr (.inr (.inr ⟨rfl, .inl ⟨x, rfl⟩⟩))))
  | fault hk =>
    have hover : i.faultOf s = some .stackOverflow := hspec.resolve_left (by simp [hk])
    exact .inr (.inr (.inr (.inr (.inr ⟨rfl, .inr hover⟩))))
  | _ => exact .inl rfl

/-- Settles O59. -/
theorem setKeyKeepsInvariants : Obligations.SetKeyKeepsInvariants := fun _ k st hi => hi.setKey k st

/-- Settles O49: RESET writes memory alone over the reset values, or answers LoadFailure. -/
theorem stateAtReset : Obligations.StateAtReset := by
  intro image
  rcases State.load_cases image with ⟨hlen, hl⟩ | ⟨hlen, hl⟩
  · exact ⟨fun _ => ⟨_, hl, State.reset_reg, rfl, rfl, fun _ => Vector.getElem_replicate .., rfl, rfl, rfl, rfl,
      State.reset_key, rfl, rfl, rfl, rfl, fun _ => BitVec.getLsbD_zero, rfl, rfl, rfl, rfl, rfl, rfl, rfl⟩,
      fun h => absurd h (Nat.not_lt.2 hlen)⟩
  · exact ⟨fun h => absurd hlen (Nat.not_lt.2 h), fun _ => hl⟩

/-- Settles O57. -/
theorem resetHasInvariants : Obligations.ResetHasInvariants := State.reset_inv

end Sys2Proof.Machine

/-! ## Memory: one canonical form, and stores over code

A canonical memory lists exactly the bytes that differ from the reset contents (`20_memory.md` R60, R61), and a store is
what the next fetch reads (R73). -/

namespace Sys2Proof.Machine

/-! ### What a canonical memory lists -/

/-- In a list with rising addresses a lookup finds every cell: no other cell has its address. -/
theorem Memory.find_eq_some_iff {a : Nat} {v : Byte} {l : List Host.Cell}
    (h : l.Pairwise fun c d => c.1 < d.1) : Memory.find a l = some v ↔ (a, v) ∈ l := by
  induction l with
  | nil => simp [Memory.find]
  | cons d l ih =>
    obtain ⟨b, u⟩ := d
    obtain ⟨hb, hl⟩ := List.pairwise_cons.1 h
    by_cases hab : a = b
    · subst hab
      have hnot : (a, v) ∉ l := fun hc => lt_irrefl a (hb _ hc)
      simp [Memory.find, hnot, eq_comm]
    · simp [Memory.find, hab, ih hl]

/-- The listed cells are determined by what the memory reads as: the bytes that are not the blank one. -/
theorem Memory.mem_cells_iff {m : Memory} (hm : m.wf) {c : Host.Cell} :
    c ∈ m.cells ↔ m.read c.1 = c.2 ∧ c.2 ≠ Memory.blank c.1 := by
  obtain ⟨a, v⟩ := c
  rw [← Memory.find_eq_some_iff hm.1, Memory.read]
  constructor
  · intro hfind
    have hmem := (Memory.find_eq_some_iff hm.1).1 hfind
    exact ⟨by rw [hfind, Option.getD_some], (hm.2 _ hmem).2⟩
  · rintro ⟨hread, hv⟩
    cases hfind : Memory.find a m.cells with
    | none =>
      rw [hfind, Option.getD_none] at hread
      exact absurd hread.symm hv
    | some u =>
      rw [hfind, Option.getD_some] at hread
      rw [hread]

/-- Settles O51: memories that read the same list the same cells, and rising addresses fix their order. -/
theorem equalReadsEqualMemory : Obligations.EqualReadsEqualMemory := by
  intro m m' hm hm' hread
  have hirrefl : Std.Irrefl fun c d : Host.Cell => c.1 < d.1 := ⟨fun c => Nat.lt_irrefl c.1⟩
  have hcells : m.cells = m'.cells := List.Pairwise.eq_of_mem_iff hm.1 hm'.1 fun c => by
    rw [Memory.mem_cells_iff hm, Memory.mem_cells_iff hm', hread]
  cases m
  cases m'
  exact congrArg Memory.mk hcells

/-! ### A fetch after a block store -/

/-- FX55 in range leaves register `V[j]` at address `I + j` (R233). -/
theorem State.read_store_regBlock {s : State} {x : Nibble} {j : Nat} (hm : s.mem.wf)
    (hI : s.I.toNat + x.toNat ≤ 0xFFF) (hj : j ≤ x.toNat) :
    (s.mem.writeBytes s.I.toNat (s.regBlock x)).read (s.I.toNat + j) = s.reg (BitVec.ofNat 4 j) := by
  have hlen : (s.regBlock x).length = x.toNat + 1 := s.regBlock_length x
  rw [Memory.read_writeBytes hm (by rw [hlen, Config.memSize]; omega), dif_pos (by omega)]
  simp only [Nat.add_sub_cancel_left, State.regBlock_getElem]

/-- Settles O47: the fetched bytes are those at `I + j` and `I + j + 1`, both in the stored block. -/
theorem nextFetchSeesStore : Obligations.NextFetchSeesStore := by
  intro x s j hm hI hj hpc
  rcases execStoreRegs_cases s x with ⟨-, he⟩ | ⟨hout, -⟩
  · refine ⟨_, he, ?_⟩
    have hnext : (s.pc + 2).toNat = s.I.toNat + j := by bv_omega
    rw [State.fetchWord, hnext, Nat.add_assoc, State.read_store_regBlock hm hI (by omega),
      State.read_store_regBlock hm hI hj]
  · exact absurd hI (Nat.not_le.2 hout)

end Sys2Proof.Machine

/-! ## Decoding and encoding

`encode` and `decodeWord` are inverse to each other (`30_encoding.md` R91 to R99): a packed word has the fields it was
packed from, and a word is packed from its fields. -/

namespace Sys2Proof

variable {w : Word} {i : Instr}

/-! ### Decoding gives the encoded instruction back -/

/-- Each instruction is found by its family, and in the families 0x0, 0x8, 0xE and 0xF by its selector. -/
theorem decodeWord_encode (i : Instr) : decodeWord (encode i) = some i := by
  cases i with
  | jp | call | ldI | jpV0 => simp [encode, decodeWord]
  | seImm | sneImm | ldImm | addImm | rnd => simp [encode, decodeWord]
  | seReg | sneReg | drw => simp [encode, decodeWord]
  | cls | ret => simp [encode, decodeWord, decodeFixed]
  | ldReg | orReg | andReg | xorReg | addReg | subReg | shr | subnReg | shl => simp [encode, decodeWord, decodeAlu]
  | skp | sknp => simp [encode, decodeWord, decodeKey]
  | getDT | waitKey | setDT | setST | addI | ldFont | storeBcd | storeRegs | loadRegs =>
    simp [encode, decodeWord, decodeMisc]

/-- Bytes decode as the word they store does, and the bytes after them are left over (R64, R90). -/
theorem decodeBytes_bytes (rest : List Byte) (h : decodeWord w = some i) :
    decodeBytes (hiByte w :: loByte w :: rest) = .ok (i, rest) := by
  simp [decodeBytes, h]

/-- Settles O2: the packed fields come back, and the two stored bytes are the word. -/
theorem decodeOfEncode : Obligations.DecodeOfEncode := fun i rest =>
  ⟨decodeWord_encode i, decodeBytes_bytes rest (decodeWord_encode i)⟩

/-! ### Encoding gives the decoded word back -/

theorem packNNN_of_fields {f : Nibble} {a : Addr} (hf : famOf w = f) (ha : nnnOf w = a) : packNNN f a = w := by
  rw [← hf, ← ha, packNNN_fields]

theorem packXNN_of_fields {f : Nibble} {nn : Byte} (hf : famOf w = f) (hnn : nnOf w = nn) :
    packXNN f (xOf w) nn = w := by
  rw [← hf, ← hnn, packXNN_fields]

theorem packXYN_of_fields {f n : Nibble} (hf : famOf w = f) (hn : nOf w = n) :
    packXYN f (xOf w) (yOf w) n = w := by
  rw [← hf, ← hn, packXYN_fields]

theorem encode_of_decodeFixed (hf : famOf w = 0x0) (h : decodeFixed w = some i) : encode i = w := by
  unfold decodeFixed at h
  split at h <;> cases h
  all_goals exact packNNN_of_fields hf ‹nnnOf w = _›

theorem encode_of_decodeAlu (hf : famOf w = 0x8) (h : decodeAlu w = some i) : encode i = w := by
  unfold decodeAlu at h
  split at h <;> cases h
  all_goals exact packXYN_of_fields hf ‹nOf w = _›

theorem encode_of_decodeKey (hf : famOf w = 0xE) (h : decodeKey w = some i) : encode i = w := by
  unfold decodeKey at h
  split at h <;> cases h
  all_goals exact packXNN_of_fields hf ‹nnOf w = _›

theorem encode_of_decodeMisc (hf : famOf w = 0xF) (h : decodeMisc w = some i) : encode i = w := by
  unfold decodeMisc at h
  split at h <;> cases h
  all_goals exact packXNN_of_fields hf ‹nnOf w = _›

/-- Settles O3: the word is packed again from the fields it was decoded to. The arms of the primary dispatch stand in
the order of the families, so arm `h_1` is family 0x0 and `h_16` is family 0xF. -/
theorem encodeOfDecode : Obligations.EncodeOfDecode := by
  intro w i h
  unfold decodeWord at h
  split at h
  case h_1 hf => exact encode_of_decodeFixed hf h
  case h_9 hf => exact encode_of_decodeAlu hf h
  case h_15 hf => exact encode_of_decodeKey hf h
  case h_16 hf => exact encode_of_decodeMisc hf h
  case h_17 => cases h
  all_goals cases h
  case h_2 hf | h_3 hf | h_11 hf | h_12 hf => exact packNNN_of_fields hf rfl
  case h_4 hf | h_5 hf | h_7 hf | h_8 hf | h_13 hf => exact packXNN_of_fields hf rfl
  case h_6 hf | h_10 hf | h_14 hf => exact packXYN_of_fields hf rfl

/-! ### Words written out from the opcode map -/

/-- Settles O1: the decoder evaluated on each word. -/
theorem specWordsDecode : Obligations.SpecWordsDecode := by
  unfold Obligations.SpecWordsDecode
  decide

end Sys2Proof

/-! ## The opcode map

The row of the instruction a word decodes to is read off the word's family and selector, the bits a row's mask keeps
(`30_encoding.md` R93 to R98). So a word decodes to the row it matches, and to no other (`40_step_dispatch.md` R126). -/

namespace Sys2Proof

variable {w p m : Word}

/-! ### The row a word decodes to -/

/-- Primary dispatch reads the family, and in families 0x0, 0x8, 0xE and 0xF the secondary dispatch its selector
(R93 to R97): words that agree there decode to the same row, whatever their operands. The arms are named as in
`encodeOfDecode`. -/
theorem map_row_decodeWord_congr (hfam : famOf w = famOf p) (hfixed : famOf p = 0x0 → nnnOf w = nnnOf p)
    (halu : famOf p = 0x8 → nOf w = nOf p) (hsel : famOf p = 0xE ∨ famOf p = 0xF → nnOf w = nnOf p) :
    (decodeWord w).map Instr.row = (decodeWord p).map Instr.row := by
  unfold decodeWord
  rw [hfam]
  split
  case h_1 hf =>
    rw [decodeFixed, decodeFixed, hfixed hf]
  case h_9 hf =>
    rw [decodeAlu, decodeAlu, halu hf]
    split <;> rfl
  case h_15 hf =>
    rw [decodeKey, decodeKey, hsel (.inl hf)]
    split <;> rfl
  case h_16 hf =>
    rw [decodeMisc, decodeMisc, hsel (.inr hf)]
    split <;> rfl
  all_goals rfl

/-! ### What a row's mask keeps -/

/-- A field that the mask keeps whole is the pattern's. -/
theorem extractLsb'_eq_of_match {start len : Nat} (h : w &&& m = p)
    (hm : m.extractLsb' start len = BitVec.allOnes len) : w.extractLsb' start len = p.extractLsb' start len := by
  rw [← h, BitVec.extractLsb'_and, hm, BitVec.and_allOnes]

/-- Each row's mask keeps the family and, where there is a secondary dispatch, its selector (R94 to R98). -/
theorem mask_covers_dispatch : ∀ r ∈ opcodeRows,
    famOf r.mask = BitVec.allOnes 4 ∧ (famOf r.pattern = 0x0 → nnnOf r.mask = BitVec.allOnes 12) ∧
      (famOf r.pattern = 0x8 → nOf r.mask = BitVec.allOnes 4) ∧
      (famOf r.pattern = 0xE ∨ famOf r.pattern = 0xF → nnOf r.mask = BitVec.allOnes 8) := by
  decide

/-- The pattern of a row, a word whose operands are 0, decodes to the row. -/
theorem map_row_decodeWord_pattern : ∀ r ∈ opcodeRows, (decodeWord r.pattern).map Instr.row = some r := by
  decide

/-- A word decodes to every row it matches; so it matches at most one. -/
theorem map_row_decodeWord_of_match {r : OpcodeRow} (hr : r ∈ opcodeRows) (h : w &&& r.mask = r.pattern) :
    (decodeWord w).map Instr.row = some r := by
  obtain ⟨hfam, hfixed, halu, hsel⟩ := mask_covers_dispatch r hr
  rw [← map_row_decodeWord_pattern r hr]
  exact map_row_decodeWord_congr (extractLsb'_eq_of_match h hfam)
    (fun hf => extractLsb'_eq_of_match h (hfixed hf)) (fun hf => extractLsb'_eq_of_match h (halu hf))
    (fun hf => extractLsb'_eq_of_match h (hsel hf))

/-! ### The row of an instruction -/

theorem Instr.row_mem_opcodeRows (i : Instr) : i.row ∈ opcodeRows := by
  cases i <;> simp [Instr.row, opcodeRows]

open Laws in
/-- The word of every instruction matches the instruction's row (R98). -/
theorem encode_matches_row (i : Instr) : encode i &&& i.row.mask = i.row.pattern :=
  match i with
  | .cls => TableRow.cls
  | .ret => TableRow.ret
  | .jp nnn => TableRow.jp nnn
  | .call nnn => TableRow.call nnn
  | .seImm x nn => TableRow.seImm x nn
  | .sneImm x nn => TableRow.sneImm x nn
  | .seReg x y n => TableRow.seReg x y n
  | .ldImm x nn => TableRow.ldImm x nn
  | .addImm x nn => TableRow.addImm x nn
  | .ldReg x y => TableRow.ldReg x y
  | .orReg x y => TableRow.orReg x y
  | .andReg x y => TableRow.andReg x y
  | .xorReg x y => TableRow.xorReg x y
  | .addReg x y => TableRow.addReg x y
  | .subReg x y => TableRow.subReg x y
  | .shr x y => TableRow.shr x y
  | .subnReg x y => TableRow.subnReg x y
  | .shl x y => TableRow.shl x y
  | .sneReg x y n => TableRow.sneReg x y n
  | .ldI nnn => TableRow.ldI nnn
  | .jpV0 nnn => TableRow.jpV0 nnn
  | .rnd x nn => TableRow.rnd x nn
  | .drw x y n => TableRow.drw x y n
  | .skp x => TableRow.skp x
  | .sknp x => TableRow.sknp x
  | .getDT x => TableRow.getDT x
  | .waitKey x => TableRow.waitKey x
  | .setDT x => TableRow.setDT x
  | .setST x => TableRow.setST x
  | .addI x => TableRow.addI x
  | .ldFont x => TableRow.ldFont x
  | .storeBcd x => TableRow.storeBcd x
  | .storeRegs x => TableRow.storeRegs x
  | .loadRegs x => TableRow.loadRegs x

/-- Settles O4: a word that decodes is the encoding of its instruction, which matches the instruction's row; a word that
matches a row decodes to it. -/
theorem decodeFollowsOpcodeMap : Obligations.DecodeFollowsOpcodeMap := by
  intro w
  constructor
  · intro i hdec
    refine ⟨i.row_mem_opcodeRows, ?_, fun r hr hmatch => ?_⟩
    · rw [← encodeOfDecode w i hdec]
      exact encode_matches_row i
    · have hrow := map_row_decodeWord_of_match hr hmatch
      rw [hdec] at hrow
      exact (Option.some.inj hrow).symm
  · intro hdec r hr hmatch
    have hrow := map_row_decodeWord_of_match hr hmatch
    rw [hdec] at hrow
    cases hrow

end Sys2Proof

/-! ## The step and its dispatch

One equation for each way a step can go (`40_step_dispatch.md` R120 to R127). -/

namespace Sys2Proof.Machine

variable {s : State} {i : Instr} {x : Nibble} {dt : NNRat} {policy : Policy}

/-! ### The phases of a step -/

/-- A halted machine is inert (R121). -/
theorem stepWith_of_halted (hf : s.fault ≠ none) : stepWith dt policy s = .next s := by
  obtain ⟨r, hr⟩ := Option.ne_none_iff_exists'.1 hf
  rw [stepWith, hr]

/-- A waiting machine polls after the timer and flag phases (R124). -/
theorem stepWith_of_waiting (hf : s.fault = none) (hw : s.wait = some x) :
    stepWith dt policy s = .next ((s.beginStep dt).waitPoll x) := by
  rw [stepWith, hf, State.pollOrFetch, State.beginStep_wait, hw]

/-- A machine that is neither halted nor waiting goes on to its fetch (R125). -/
theorem stepWith_of_running (hf : s.fault = none) (hw : s.wait = none) :
    stepWith dt policy s = (s.beginStep dt).fetchAndExecute policy := by
  rw [stepWith, hf, State.pollOrFetch, State.beginStep_wait, hw]

/-- A fetch in range of a word that decodes is dispatched to its instruction (R126, R127). -/
theorem State.fetchAndExecute_of_decode (hpc : s.pc.toNat ≤ 0xFFE) (hd : decodeWord s.fetchWord = some i) :
    s.fetchAndExecute policy = exec i s := by
  rw [State.fetchAndExecute, if_pos (State.canFetch_iff.2 hpc), hd]

/-- A fetch out of range raises MemoryOutOfBounds, with no opcode (R125, R253). -/
theorem State.fetchAndExecute_outOfRange (hpc : 0xFFE < s.pc.toNat) :
    s.fetchAndExecute policy = .next (s.raise .memoryOutOfBounds none) := by
  rw [State.fetchAndExecute, if_neg (mt State.canFetch_iff.1 (Nat.not_le.2 hpc))]

/-- A step that fetches a word that decodes is the meaning of its instruction (R120). -/
theorem stepWith_of_decode (hf : s.fault = none) (hw : s.wait = none) (hpc : s.pc.toNat ≤ 0xFFE)
    (hd : decodeWord s.fetchWord = some i) : stepWith dt policy s = exec i (s.beginStep dt) := by
  rw [stepWith_of_running hf hw]
  exact State.fetchAndExecute_of_decode (s := s.beginStep dt) hpc hd

/-! ### Decoded bytes, and the word of a jump -/

/-- Two bytes decode as the word they make up (R64). -/
theorem decodeWord_of_decodeBytes {hi lo : Byte} {rest : List Byte} (h : decodeBytes [hi, lo] = .ok (i, rest)) :
    decodeWord (hi ++ lo) = some i := by
  rcases hd : decodeWord (wordOfBytes hi lo) with _ | j <;> rw [decodeBytes, hd] at h
  · cases h
  · cases h
    exact hd

theorem zextNibble_toNat (k : Nibble) : (zextNibble k).toNat = k.toNat := by
  simp only [zextNibble]
  bv_omega

theorem zextAddr_setWidth {a : Word} (ha : a.toNat ≤ 0xFFF) : zextAddr (a.setWidth 12) = a := by
  simp only [zextAddr]
  bv_omega

/-- The word of a jump to an address of the 12-bit space (R142). -/
theorem encode_jp_setWidth {a : Word} (ha : a.toNat ≤ 0xFFF) : encode (.jp (a.setWidth 12)) = 0x1000 ||| a := by
  refine BitVec.eq_of_toNat_eq ((BitVec.toNat_append ..).trans ?_)
  rw [BitVec.toNat_or, BitVec.toNat_setWidth, Nat.mod_eq_of_lt (by omega)]
  rfl

/-! ### The obligations of the step -/

/-- Settles O7: the tone of a step is that of its own tick, for it is cleared first. -/
theorem stepBeginsWithTimersThenFlags : Obligations.StepBeginsWithTimersThenFlags := by
  intro dt s
  refine ⟨rfl, ?_⟩
  rw [State.beginStep_tone, Bool.and_eq_true, State.ticks, decide_eq_true_iff, beq_iff_eq, ← BitVec.toNat_inj]
  rfl

/-- Settles O10: the poll after the timer and flag phases, with an event latched and without. -/
theorem waitingStepPolls : Obligations.WaitingStepPolls := by
  intro dt policy s x hf hw
  refine ⟨_, stepWith_of_waiting hf hw, fun hk => ?_, fun hk => State.waitPoll_quiet x hk⟩
  rw [State.waitPoll_event (s := s.beginStep dt) x hk]
  refine ⟨rfl, ?_, fun r hr => ?_⟩
  · rw [State.reg_advance, State.reg_setReg, if_pos rfl, zextNibble_toNat, State.beginStep_lastKey]
  · rw [State.reg_advance, State.reg_setReg, if_neg hr]
    exact s.reg_beginStep r dt

/-- Settles O14: the word decodes to a jump to `pc`, which writes `pc` with its own value. -/
theorem jumpToSelfChangesOnlyTime : Obligations.JumpToSelfChangesOnlyTime := by
  intro dt policy s hf hw hpc hword
  have hin : s.pc.toNat ≤ 0xFFF := hpc.trans (by decide)
  have hdec : decodeWord s.fetchWord = some (.jp (s.pc.setWidth 12)) := by
    rw [State.fetchWord, hword, ← encode_jp_setWidth hin, decodeWord_encode]
  rw [stepWith_of_decode hf hw hpc hdec, exec, execJp, zextAddr_setWidth hin]
  rfl

/-- Settles O5. -/
theorem stepRunsDecodedInstruction : Obligations.StepRunsDecodedInstruction := by
  intro dt policy s i hf hw hpc hbytes
  have hdec : decodeWord s.fetchWord = some i := decodeWord_of_decodeBytes hbytes
  exact ⟨stepWith_of_decode hf hw hpc hdec, stepWith_of_decode hf hw hpc hdec⟩

/-- Settles O9. -/
theorem haltedMachineIsInert : Obligations.HaltedMachineIsInert :=
  fun _ _ _ hf => ⟨stepWith_of_halted hf, stepWith_of_halted hf⟩

/-- Settles O11. -/
theorem fetchOutOfRangeFaults : Obligations.FetchOutOfRangeFaults := by
  intro dt policy s hf hw hpc
  refine ⟨_, (stepWith_of_running hf hw).trans (State.fetchAndExecute_outOfRange (Nat.lt_of_succ_lt_succ hpc)), ?_⟩
  rw [State.raise_fault, State.beginStep_pc]

end Sys2Proof.Machine

/-! ## Control transfer

The equations of the instructions that choose the next `pc` (`41_control_transfer.md`): CALL and RET with the call
stack able to answer them, and the one equation of a skip. -/

namespace Sys2Proof.Machine

variable {s : State} {nnn : Addr}

/-! ### CALL and RET -/

/-- A CALL with a frame free pushes its own address (R143). -/
theorem exec_call_of_lt (hs : s.sp.val < 16) : exec (.call nnn) s = .next
    { s with
      stack := s.stack.set s.sp.val s.pc, sp := ⟨s.sp.val + 1, Nat.succ_lt_succ hs⟩, pc := zextAddr nnn } := by
  rcases execCall_cases s nnn with ⟨_, he⟩ | ⟨hfull, -⟩
  · exact he
  · omega

/-- A CALL with all 16 frames in use faults (R143). -/
theorem exec_call_of_full (hs : s.sp.val = 16) :
    exec (.call nnn) s = .next (s.raise .stackOverflow (some (encode (.call nnn)))) := by
  rcases execCall_cases s nnn with ⟨hlt, -⟩ | ⟨-, he⟩
  · omega
  · exact he

/-- A RET with a frame in use goes past the address in the slot it frees (R141). -/
theorem exec_ret_of_slot {k : Nat} {ra : Word} (hk : s.sp.val = k + 1) (hra : s.stack[k]? = some ra) :
    exec .ret s = .next { s with sp := ⟨k, by have := s.sp.isLt; omega⟩, pc := ra + 2 } := by
  rcases execRet_cases s with ⟨ra', _, hra', he⟩ | ⟨hempty, -⟩
  · simp only [hk, Nat.add_sub_cancel] at hra' he
    cases hra.symm.trans hra'
    exact he
  · omega

/-! ### Skips -/

/-- A skip on a test that decides `P` goes to `pc + 4` when `P` holds, else to `pc + 2` (R140). -/
theorem State.skipWhen_of_iff {c : Bool} {P : Prop} [Decidable P] (h : c = true ↔ P) :
    s.skipWhen c = { s with pc := if P then s.pc + 4 else s.pc + 2 } := by
  rw [State.skipWhen, State.setPc, if_congr h rfl rfl]

/-! ### The obligations of control transfer -/

/-- Settles O18. -/
theorem callPushesItsAddress : Obligations.CallPushesItsAddress := by
  intro nnn s hs
  refine ⟨_, exec_call_of_lt hs, rfl, rfl, zextAddr_toNat nnn, fun j => ?_⟩
  exact (Vector.getElem_set hs j.isLt).trans (if_congr eq_comm rfl rfl)

/-- Settles O21: the slot that RET reads is the one that CALL wrote. -/
theorem callThenReturnRoundTrips : Obligations.CallThenReturnRoundTrips := by
  intro nnn s hs
  have hslot : (s.stack.set s.sp.val s.pc)[s.sp.val]? = some s.pc := by
    rw [Vector.getElem?_eq_getElem hs, Vector.getElem_set_self]
  exact ⟨_, _, exec_call_of_lt hs, exec_ret_of_slot rfl hslot, rfl,
    fun j hj => Vector.getElem_set_ne hs _ (Ne.symm hj)⟩

/-- Settles O16. -/
theorem jumpSetsPc : Obligations.JumpSetsPc := fun nnn _ => ⟨_, rfl, rfl, zextAddr_toNat nnn⟩

/-- Settles O17: the sum is at most 0x10FE, so 16 bits hold it. -/
theorem indexedJumpAddsV0 : Obligations.IndexedJumpAddsV0 :=
  fun nnn s => ⟨_, rfl, rfl, zextAddr_add_zextByte_toNat nnn (s.reg 0)⟩

/-- Settles O19. -/
theorem callAtFullStackOnlyFaults : Obligations.CallAtFullStackOnlyFaults := fun _ _ hs => exec_call_of_full hs

/-- Settles O20. -/
theorem returnGoesPastItsCall : Obligations.ReturnGoesPastItsCall := by
  intro s hs
  obtain ⟨k, hk⟩ := Nat.exists_eq_add_one.2 hs
  have hslot : s.stack[k]? = some (s.stack[k]'(by have := s.sp.isLt; omega)) := Vector.getElem?_eq_getElem _
  exact ⟨_, _, exec_ret_of_slot hk hslot, rfl, hk.symm, hslot⟩

/-- Settles O22. -/
theorem skipsOnImmediate : Obligations.SkipsOnImmediate := fun _ _ _ =>
  ⟨congrArg Host.Outcome.next (State.skipWhen_of_iff beq_iff_eq),
    congrArg Host.Outcome.next (State.skipWhen_of_iff bne_iff_ne)⟩

/-- Settles O23: the meanings of both skips leave `n` out. -/
theorem skipsOnRegisters : Obligations.SkipsOnRegisters := fun _ _ _ _ =>
  ⟨congrArg Host.Outcome.next (State.skipWhen_of_iff beq_iff_eq),
    congrArg Host.Outcome.next (State.skipWhen_of_iff bne_iff_ne)⟩

end Sys2Proof.Machine

/-! ## Immediate, index and random loads

The rule of an instruction that ends by writing one register (R12, R21), and the instructions of
`42_immediate_index_random.md`. -/

namespace Sys2Proof.Machine

variable {s : State} {i : Instr} {x : Nibble}

/-- A write of one register and the advance of `pc` touch nothing else. -/
theorem completesWithReg_of_setReg {v : Byte} (h : exec i s = .next (s.setReg x v).advance) :
    CompletesWithReg i s x v :=
  ⟨_, h, rfl, fun r => State.reg_setReg s x r v⟩

/-- A masked byte has no bit outside its mask. -/
theorem and_mask_and_not_mask (b nn : Byte) : b &&& nn &&& ~~~nn = 0 := by
  rw [BitVec.and_assoc, BitVec.and_not_self]
  exact BitVec.and_zero

/-! ### The obligations of the immediate, index and random loads -/

/-- Settles O24. -/
theorem loadImmediateWritesRegister : Obligations.LoadImmediateWritesRegister :=
  fun _ _ _ => completesWithReg_of_setReg rfl

/-- Settles O25: the sum of two bytes is taken modulo 256. -/
theorem addImmediateWrapsWithoutFlag : Obligations.AddImmediateWrapsWithoutFlag :=
  fun x nn s => ⟨s.reg x + nn, BitVec.toNat_add .., completesWithReg_of_setReg rfl⟩

/-- Settles O26. -/
theorem loadIndexWritesI : Obligations.LoadIndexWritesI := fun nnn _ => ⟨_, rfl, rfl, zextAddr_toNat nnn⟩

/-- Settles O27: the register is written after the draw, and the draw leaves the registers alone. -/
theorem randomIsMaskedFreeByte : Obligations.RandomIsMaskedFreeByte := by
  intro x nn s
  have hreg (r : Nibble) : (s.drawByte.2.setReg x (s.drawByte.1 &&& nn)).advance.reg r =
      if r = x then Config.randomByte s.drawIndex &&& nn else s.reg r :=
    State.reg_setReg s.drawByte.2 x r (s.drawByte.1 &&& nn)
  refine ⟨_, rfl, rfl, ?_, ?_, fun r hr => ?_⟩
  · rw [hreg, if_pos rfl]
  · rw [hreg, if_pos rfl, and_mask_and_not_mask]
  · rw [hreg, if_neg hr]

end Sys2Proof.Machine

/-! ## The 8-bit ALU

The rule of an instruction that writes a result and then its flag (R171), the flag computations as the numbers the
obligations speak of, and the instructions of `43_alu.md`. -/

namespace Sys2Proof.Machine

variable {s : State} {i : Instr} {x : Nibble}

/-- A write of a result and its flag and the advance of `pc` touch nothing else, and the flag is what remains in VF. -/
theorem completesWithFlag_of_setResult {rc : Byte × Bool} (h : exec i s = .next (s.setResult x rc).advance) :
    CompletesWithFlag i s x rc.1 (flagByte rc.2) :=
  ⟨_, h, rfl, fun r => State.reg_setResult s x r rc⟩

theorem flagByte_decide_toNat (p : Prop) [Decidable p] : (flagByte (decide p)).toNat = if p then 1 else 0 := by
  by_cases hp : p <;> simp [hp]

theorem addCarry_flagByte_toNat (a b : Byte) :
    (flagByte (addCarry a b).2).toNat = if 255 < a.toNat + b.toNat then 1 else 0 :=
  flagByte_decide_toNat _

/-- `sub_borrow` as the integer difference modulo 256 (R172). -/
theorem subBorrow_toNat_int (a b : Byte) : ((subBorrow a b).1.toNat : Int) = ((a.toNat : Int) - b.toNat) % 256 := by
  have hb := b.isLt
  rw [subBorrow_toNat]
  omega

theorem subBorrow_flagByte_toNat (a b : Byte) :
    (flagByte (subBorrow a b).2).toNat = if b.toNat ≤ a.toNat then 1 else 0 :=
  flagByte_decide_toNat _

/-- The bit that leaves at the bottom is the remainder (R179). -/
theorem shiftRightOut_flagByte_toNat (a : Byte) : (flagByte (shiftRightOut a).2).toNat = a.toNat % 2 := by
  rw [shiftRightOut_flag, flagByte_decide_toNat]
  split <;> omega

/-- The bit that leaves at the top is the quotient by its weight (R181). -/
theorem shiftLeftOut_flagByte_toNat (a : Byte) : (flagByte (shiftLeftOut a).2).toNat = a.toNat / 128 := by
  have ha := a.isLt
  rw [shiftLeftOut_flag, flagByte_decide_toNat]
  split <;> omega

/-! ### The obligations of the ALU -/

/-- Settles O28: none of the four writes a flag. -/
theorem copyAndLogicWriteNoFlag : Obligations.CopyAndLogicWriteNoFlag := fun _ _ _ =>
  ⟨completesWithReg_of_setReg rfl, completesWithReg_of_setReg rfl, completesWithReg_of_setReg rfl,
    completesWithReg_of_setReg rfl⟩

/-- Settles O29. -/
theorem addSetsCarry : Obligations.AddSetsCarry := fun _ _ _ =>
  ⟨_, _, addCarry_toNat .., addCarry_flagByte_toNat .., completesWithFlag_of_setResult rfl⟩

/-- Settles O30: both directions are one subtraction, with the operands exchanged. -/
theorem subtractSetsNoBorrow : Obligations.SubtractSetsNoBorrow := fun _ _ _ =>
  ⟨⟨_, _, subBorrow_toNat_int .., subBorrow_flagByte_toNat .., completesWithFlag_of_setResult rfl⟩,
    ⟨_, _, subBorrow_toNat_int .., subBorrow_flagByte_toNat .., completesWithFlag_of_setResult rfl⟩⟩

/-- Settles O31: the meanings of both shifts leave `y` out. -/
theorem shiftsPutBitInVF : Obligations.ShiftsPutBitInVF := fun _ _ _ =>
  ⟨⟨_, _, shiftRightOut_toNat _, shiftRightOut_flagByte_toNat _, completesWithFlag_of_setResult rfl⟩,
    ⟨_, _, shiftLeftOut_toNat _, shiftLeftOut_flagByte_toNat _, completesWithFlag_of_setResult rfl⟩⟩

end Sys2Proof.Machine

/-! ## Display

What a completed DXYN leaves (`44_display.md` R192), its framebuffer and collision in the words of `State.spriteCovers`,
and the statements about 00E0, DXYN and GET_PIXEL. -/

namespace Sys2Proof.Machine

variable {s : State} {x y n : Nibble} {px py : Nat}

/-! ### A completed DXYN -/

/-- The state a completed DXYN leaves (R192); `exec_drw_of_inRange` says that it does. -/
def State.drawn (s : State) (x y n : Nibble) : State :=
  ({ s with fb := (s.sprite x y n).1, draw := true }.setFlag (s.sprite x y n).2).advance

/-- DXYN completes when its bytes are in range, the premise being spelled as in the obligations. -/
theorem exec_drw_of_inRange (h : n.toNat = 0 ∨ s.I.toNat + n.toNat - 1 ≤ 0xFFF) :
    exec (.drw x y n) s = .next (s.drawn x y n) := by
  rcases execDrw_cases s x y n with ⟨-, he⟩ | ⟨hn, hI, -⟩
  · exact he
  · omega

/-- VF takes the collision (R192, R194). -/
theorem State.reg_drawn_VF : (s.drawn x y n).reg 0xF = flagByte (s.sprite x y n).2 :=
  (State.reg_setFlag { s with fb := (s.sprite x y n).1, draw := true } VF (s.sprite x y n).2).trans (if_pos rfl)

theorem State.reg_drawn_other {r : Nibble} (hr : r ≠ 0xF) : (s.drawn x y n).reg r = s.reg r :=
  (State.reg_setFlag { s with fb := (s.sprite x y n).1, draw := true } r (s.sprite x y n).2).trans (if_neg hr)

/-! ### What the sprite does, pixel by pixel -/

/-- The rows DXYN reads cover what the sprite covers. -/
theorem State.covers_readBytes_iff :
    covers (s.reg x).toNat (s.reg y).toNat (s.mem.readBytes s.I.toNat n.toNat) px py ↔
      s.spriteCovers x y n px py := by
  simp only [covers, State.spriteCovers, Memory.readBytes_length, Memory.readBytes_getElem, exists_prop]

/-- What a sprite covers depends on its origin and on its bytes. -/
theorem State.spriteCovers_congr {t : State} (hx : t.reg x = s.reg x) (hy : t.reg y = s.reg y) (hI : t.I = s.I)
    (hm : t.mem = s.mem) : t.spriteCovers x y n px py ↔ s.spriteCovers x y n px py := by
  simp only [State.spriteCovers, hx, hy, hI, hm]

/-- DXYN toggles the pixels inside the frame that its sprite covers, and no others (R192, R193). -/
theorem State.drawn_pixel (hf : inFrame px py = true) :
    (s.spriteCovers x y n px py →
        (s.drawn x y n).fb.getLsbD (pixelIndex px py) = !s.fb.getLsbD (pixelIndex px py)) ∧
      (¬s.spriteCovers x y n px py →
        (s.drawn x y n).fb.getLsbD (pixelIndex px py) = s.fb.getLsbD (pixelIndex px py)) := by
  rw [← State.covers_readBytes_iff]
  exact blit_pixel (s.fb, false) _ _ _ hf

/-- A pixel that DXYN leaves ON lies under its sprite exactly when it was OFF. -/
theorem State.spriteCovers_iff_of_drawn_on (hf : inFrame px py = true)
    (hon : (s.drawn x y n).fb.getLsbD (pixelIndex px py) = true) :
    s.spriteCovers x y n px py ↔ s.fb.getLsbD (pixelIndex px py) = false := by
  obtain ⟨htoggled, hkept⟩ := State.drawn_pixel (s := s) (x := x) (y := y) (n := n) hf
  constructor
  · intro hc
    rwa [htoggled hc, Bool.not_eq_true'] at hon
  · intro hoff
    by_contra hc
    rw [hkept hc, hoff] at hon
    exact Bool.false_ne_true hon

/-- The sprite collides when it covers a pixel inside the frame that is ON (R194). -/
theorem State.sprite_collision : (s.sprite x y n).2 = true ↔
    ∃ px < 64, ∃ py < 32, s.spriteCovers x y n px py ∧ s.fb.getLsbD (py * 64 + px) = true := by
  rw [State.sprite, blit_collision]
  simp only [Bool.false_eq_true, false_or, inFrame_iff, State.covers_readBytes_iff, pixelIndex, Config.fbWidth]
  constructor
  · rintro ⟨px, py, ⟨hx, hy⟩, h⟩
    exact ⟨px, hx, py, hy, h⟩
  · rintro ⟨px, hx, py, hy, h⟩
    exact ⟨px, py, ⟨hx, hy⟩, h⟩

theorem flagByte_false : flagByte false = 0 := rfl

theorem flagByte_eq_one_iff {c : Bool} : flagByte c = 1 ↔ c = true := by cases c <;> decide

/-- VF is 1 exactly when the sprite covered a pixel inside the frame that was ON (R194). -/
theorem State.drawn_flag_iff : (s.drawn x y n).reg 0xF = 1 ↔
    ∃ px < 64, ∃ py < 32, s.spriteCovers x y n px py ∧ s.fb.getLsbD (py * 64 + px) = true := by
  rw [State.reg_drawn_VF, flagByte_eq_one_iff, State.sprite_collision]

/-- A second DXYN with the same origin toggles the same pixels back (R195). -/
theorem State.drawn_drawn_fb (hx : (s.drawn x y n).reg x = s.reg x) (hy : (s.drawn x y n).reg y = s.reg y) :
    ((s.drawn x y n).drawn x y n).fb = s.fb := by
  refine fb_ext fun px py hf => ?_
  have hsame := State.spriteCovers_congr (n := n) (px := px) (py := py) hx hy rfl rfl
  by_cases hc : s.spriteCovers x y n px py
  · rw [(State.drawn_pixel hf).1 (hsame.2 hc), (State.drawn_pixel hf).1 hc, Bool.not_not]
  · rw [(State.drawn_pixel hf).2 (hc ∘ hsame.1), (State.drawn_pixel hf).2 hc]

/-! ### The obligations of the display -/

/-- Settles O33: `State.drawn` is the next state, and VF is the flag byte of the collision. -/
theorem drawTogglesCoveredPixels : Obligations.DrawTogglesCoveredPixels := by
  intro x y n s h
  refine ⟨s.drawn x y n, exec_drw_of_inRange h, rfl, fun _ => State.reg_drawn_other,
    fun px hx py hy => State.drawn_pixel ((inFrame_iff px py).2 ⟨hx, hy⟩), State.drawn_flag_iff.2, fun hnone => ?_⟩
  rw [← State.sprite_collision, Bool.not_eq_true] at hnone
  rw [State.reg_drawn_VF, hnone, flagByte_false]

/-- Settles O34: the second sprite covers what the first covered, and a pixel that the second finds ON is covered
exactly when the first turned it ON. -/
theorem drawTwiceRestoresScreen : Obligations.DrawTwiceRestoresScreen := by
  intro x y n s h
  refine ⟨s.drawn x y n, (s.drawn x y n).drawn x y n, exec_drw_of_inRange h, exec_drw_of_inRange h,
    fun hx hy => ⟨State.drawn_drawn_fb hx hy, State.drawn_flag_iff.trans ?_⟩⟩
  refine exists_congr fun px => and_congr_right fun hpx => exists_congr fun py => and_congr_right fun hpy =>
    and_congr_left fun hon => ?_
  exact (State.spriteCovers_congr hx hy rfl rfl).trans
    (State.spriteCovers_iff_of_drawn_on ((inFrame_iff px py).2 ⟨hpx, hpy⟩) hon)

/-- Settles O32. -/
theorem clearScreenTurnsAllOff : Obligations.ClearScreenTurnsAllOff :=
  fun _ => ⟨_, rfl, rfl, fun _ => BitVec.getLsbD_zero⟩

/-- Settles O35: the frame test of GET_PIXEL is that of the sprite engine (R190). -/
theorem getPixelReadsFrame : Obligations.GetPixelReadsFrame := by
  intro s x y
  refine ⟨fun hx hy => if_pos ((inFrame_iff x y).2 ⟨hx, hy⟩), fun hout => if_neg ?_⟩
  rw [inFrame_iff]
  omega

end Sys2Proof.Machine

/-! ## Timers, and what a program learns of time

The timer phase with and without a tick (`45_timers.md` R201), and two runs of which the second starts with another
accumulator, other timers and another tone: the next states differ in these alone, FX07 excepted (R200). -/

namespace Sys2Proof.Machine

variable {s c : State} {i : Instr} {x : Nibble} {dt dt' : NNRat} {policy : Policy}

/-! ### The timer phase -/

/-- Counting down stops at 0, as subtraction of numbers does (R200). -/
theorem countDown_toNat (v : Byte) : (countDown v).toNat = v.toNat - 1 := by
  rw [countDown]
  split_ifs with hv
  · rw [hv]
    rfl
  · bv_omega

theorem State.ticks_eq_true_iff : s.ticks dt = true ↔ 1 / 60 ≤ s.acc + dt := decide_eq_true_iff

theorem State.ticks_eq_false_iff : s.ticks dt = false ↔ s.acc + dt < 1 / 60 := decide_eq_false_iff_not.trans not_le

/-- A tick discards the time above 1/60 second (R201). -/
theorem State.timerAdvance_of_ticks (h : s.ticks dt = true) : s.timerAdvance dt =
    { s with acc := 0, DT := countDown s.DT, ST := countDown s.ST, tone := s.tone || s.ST == 1 } := by
  simp [State.timerAdvance, h]

/-- Without a tick the delta is only added (R201). -/
theorem State.timerAdvance_of_not_ticks (h : s.ticks dt = false) :
    s.timerAdvance dt = { s with acc := s.acc + dt } := by
  simp [State.timerAdvance, h]

/-! ### States that differ in time alone -/

/-- The state with the accumulator, the timers and the tone of `c`: all that the timer phase writes. -/
def State.withTimeOf (s c : State) : State := { s with acc := c.acc, DT := c.DT, ST := c.ST, tone := c.tone }

/-- Two runs answer next states that differ in the accumulator, the timers and the tone alone. -/
def DifferInTime (o o' : Host.Outcome State Fault Refusal) : Prop :=
  ∃ t t', o = .next t ∧ o' = .next t' ∧ t' = t.withTimeOf t'

theorem differInTime_next (s c : State) : DifferInTime (.next s) (.next (s.withTimeOf c)) := ⟨_, _, rfl, rfl, rfl⟩

/-- Runs that branch on one condition. -/
theorem differInTime_ite {P : Prop} [Decidable P] {a b a' b' : Host.Outcome State Fault Refusal}
    (ha : DifferInTime a a') (hb : DifferInTime b b') :
    DifferInTime (if P then a else b) (if P then a' else b') := by
  split_ifs
  · exact ha
  · exact hb

/-- The delta reaches a step only through what the timer phase writes. -/
theorem State.beginStep_withTimeOf (s : State) (dt dt' : NNRat) :
    (s.beginStep dt).withTimeOf (s.beginStep dt') = s.beginStep dt' := rfl

theorem State.keyAt_withTimeOf : (s.withTimeOf c).keyAt x = s.keyAt x := rfl

theorem State.fetchWord_withTimeOf : (s.withTimeOf c).fetchWord = s.fetchWord := rfl

theorem State.pop_withTimeOf : s.pop.map (Prod.map id (State.withTimeOf · c)) = (s.withTimeOf c).pop :=
  apply_dite (Option.map (Prod.map id (State.withTimeOf · c))) ..

theorem State.storeAtI_withTimeOf (bytes : List Byte) (w : Word) :
    (s.storeAtI bytes w).withTimeOf c = (s.withTimeOf c).storeAtI bytes w :=
  apply_ite (State.withTimeOf · c) ..

theorem State.setRegBlock_withTimeOf (j : Nat) (bytes : List Byte) :
    (s.setRegBlock j bytes).withTimeOf c = (s.withTimeOf c).setRegBlock j bytes := by
  induction bytes generalizing s j with
  | nil => rfl
  | cons v vs ih => exact ih (s := s.setReg (BitVec.ofNat 4 j) v) (j + 1)

theorem State.waitPoll_withTimeOf : (s.waitPoll x).withTimeOf c = (s.withTimeOf c).waitPoll x :=
  apply_ite (State.withTimeOf · c) ..

/-! ### Instructions and steps that differ in time alone -/

theorem execRet_differInTime : DifferInTime (execRet s) (execRet (s.withTimeOf c)) := by
  rw [execRet, execRet, ← State.pop_withTimeOf]
  cases s.pop <;> exact differInTime_next _ c

theorem execCall_differInTime (nnn : Addr) : DifferInTime (execCall nnn s) (execCall nnn (s.withTimeOf c)) := by
  rcases Nat.lt_or_eq_of_le s.sp.is_le with hs | hs
  · exact ⟨_, _, exec_call_of_lt hs, exec_call_of_lt (s := s.withTimeOf c) hs, rfl⟩
  · exact ⟨_, _, exec_call_of_full hs, exec_call_of_full (s := s.withTimeOf c) hs, rfl⟩

theorem execSkp_differInTime : DifferInTime (execSkp x s) (execSkp x (s.withTimeOf c)) := by
  rw [execSkp, execSkp, State.keyAt_withTimeOf]
  cases s.keyAt x <;> exact differInTime_next _ c

theorem execSknp_differInTime : DifferInTime (execSknp x s) (execSknp x (s.withTimeOf c)) := by
  rw [execSknp, execSknp, State.keyAt_withTimeOf]
  cases s.keyAt x <;> exact differInTime_next _ c

theorem storeAtI_differInTime (bytes : List Byte) (w : Word) :
    DifferInTime (.next (s.storeAtI bytes w)) (.next ((s.withTimeOf c).storeAtI bytes w)) := by
  rw [← State.storeAtI_withTimeOf]
  exact differInTime_next ..

theorem execLoadRegs_differInTime : DifferInTime (execLoadRegs x s) (execLoadRegs x (s.withTimeOf c)) := by
  rw [execLoadRegs, execLoadRegs, ← State.setRegBlock_withTimeOf]
  exact differInTime_ite (differInTime_next _ c) (differInTime_next _ c)

/-- No instruction but FX07 reads what the timer phase writes (R200). -/
theorem exec_differInTime (s c : State) (hi : ∀ x, i ≠ .getDT x) :
    DifferInTime (exec i s) (exec i (s.withTimeOf c)) := by
  cases i with
  | getDT x => exact absurd rfl (hi x)
  | ret => exact execRet_differInTime
  | call nnn => exact execCall_differInTime nnn
  | skp => exact execSkp_differInTime
  | sknp => exact execSknp_differInTime
  | loadRegs => exact execLoadRegs_differInTime
  | drw | addI => exact differInTime_ite (differInTime_next _ c) (differInTime_next _ c)
  | storeBcd | storeRegs => exact storeAtI_differInTime ..
  | _ => exact ⟨_, _, rfl, rfl, rfl⟩

theorem State.fetchAndExecute_differInTime (s c : State) (hi : ∀ x, decodeWord s.fetchWord ≠ some (.getDT x)) :
    DifferInTime (s.fetchAndExecute policy) ((s.withTimeOf c).fetchAndExecute policy) := by
  refine differInTime_ite ?_ (differInTime_next _ c)
  rw [State.fetchWord_withTimeOf]
  rcases hd : decodeWord s.fetchWord with _ | i
  · cases policy <;> exact differInTime_next _ c
  · exact exec_differInTime s c fun x hx => hi x (hd.trans (congrArg some hx))

/-- One step with two deltas, each phase that may end it in turn (R120). -/
theorem stepWith_differInTime (hi : ∀ x, decodeWord s.fetchWord ≠ some (.getDT x)) :
    DifferInTime (stepWith dt policy s) (stepWith dt' policy s) := by
  by_cases hf : s.fault = none
  · rcases hw : s.wait with _ | x
    · rw [stepWith_of_running hf hw, stepWith_of_running hf hw, ← State.beginStep_withTimeOf s dt dt']
      exact (s.beginStep dt).fetchAndExecute_differInTime _ hi
    · rw [stepWith_of_waiting hf hw, stepWith_of_waiting hf hw, ← State.beginStep_withTimeOf s dt dt',
        ← State.waitPoll_withTimeOf]
      exact differInTime_next ..
  · rw [stepWith_of_halted hf, stepWith_of_halted hf]
    exact differInTime_next s s

/-! ### The obligations of the timers -/

/-- Settles O15: both runs fault alike, for the fault record is no part of the time. -/
theorem timeIsSeenOnlyThroughFX07 : Obligations.TimeIsSeenOnlyThroughFX07 := by
  intro dt dt' policy s t t' hi h h'
  obtain ⟨u, u', hu, hu', hdiff⟩ := stepWith_differInTime (dt := dt) (dt' := dt') (policy := policy) hi
  cases hu.symm.trans h
  cases hu'.symm.trans h'
  exact ⟨(congrArg State.fault hdiff).trans rfl, fun _ => hdiff⟩

/-- Settles O6. -/
theorem timerPhaseDecaysTimers : Obligations.TimerPhaseDecaysTimers := by
  intro dt s
  refine ⟨rfl, fun h => ?_, fun h => ?_⟩
  · rw [State.timerAdvance_of_ticks (State.ticks_eq_true_iff.2 h)]
    refine ⟨rfl, countDown_toNat _, countDown_toNat _, ?_⟩
    rw [Bool.or_eq_true, beq_iff_eq, ← BitVec.toNat_inj]
    rfl
  · rw [State.timerAdvance_of_not_ticks (State.ticks_eq_false_iff.2 h)]
    exact ⟨rfl, rfl, rfl, rfl⟩

/-- Settles O8: with a tick and without; the accumulator stays below a tick's time because the tick sets it to 0. -/
theorem stepTicksAtMostOnce : Obligations.StepTicksAtMostOnce := by
  intro dt s hacc
  rw [State.beginStep_DT, State.beginStep_ST, State.beginStep_acc]
  rcases ht : s.ticks dt with _ | _
  · exact ⟨Nat.le_succ _, le_rfl, Nat.le_succ _, le_rfl, add_nonneg hacc dt.cast_nonneg,
      State.ticks_eq_false_iff.1 ht⟩
  · simp only [if_true, countDown_toNat]
    exact ⟨le_tsub_add, Nat.sub_le .., le_tsub_add, Nat.sub_le .., le_rfl, by norm_num⟩

/-- Settles O36: none of the three writes the accumulator or the tone. -/
theorem timerInstructionsMoveBytes : Obligations.TimerInstructionsMoveBytes :=
  fun _ _ => ⟨completesWithReg_of_setReg rfl, rfl, rfl⟩

end Sys2Proof.Machine

/-! ## Keypad

SET_KEY and GET_KEY by key number, the key skips, and how a key-wait goes on and how it ends (`46_keypad.md`). -/

namespace Sys2Proof.Machine

variable {s : State} {x k : Nibble} {st : KeyState} {dt : NNRat} {policy : Policy}

/-! ### Key numbers -/

/-- SET_KEY with a number below 16 sets the key of that number (R211). -/
theorem State.setKeyNumber_toNat : s.setKeyNumber k.toNat st = .next (s.setKey k st) := by
  rw [State.setKeyNumber, if_pos k.isLt, BitVec.ofNat_toNat, BitVec.setWidth_eq]

/-- GET_KEY with a number below 16 answers the key of that number (R212). -/
theorem State.getKey_toNat : s.getKey k.toNat = .ok (s.key k) := by
  rw [State.getKey, if_pos k.isLt, BitVec.ofNat_toNat, BitVec.setWidth_eq]

/-! ### The key-wait -/

/-- A waiting step with no event latched ends after the timer and flag phases (R216). -/
theorem stepWith_of_waiting_quiet (hf : s.fault = none) (hw : s.wait = some x) (hq : s.keyEvent = false) :
    stepWith dt policy s = .next (s.beginStep dt) := by
  rw [stepWith_of_waiting hf hw, State.waitPoll_quiet (s := s.beginStep dt) x hq]

/-- A SET_KEY that is no key-down event leaves a wait going on over the next step (R219). -/
theorem stepWith_setKey_of_quiet (hf : s.fault = none) (hw : s.wait = some x) (hq : s.keyEvent = false)
    (hk : st = .up ∨ s.key k = .down) :
    ∃ t, stepWith dt policy (s.setKey k st) = .next t ∧
      t.wait = some x ∧ t.keyEvent = false ∧ t.pc = s.pc ∧ ∀ r, t.reg r = s.reg r := by
  rw [State.setKey_quiet s k st hk]
  exact ⟨_, stepWith_of_waiting_quiet hf hw hq, hw, hq, rfl, fun _ => rfl⟩

/-- A waiting step with an event latched ends the wait with the last key (R216). -/
theorem stepWith_of_waiting_event (hf : s.fault = none) (hw : s.wait = some x) (he : s.keyEvent = true) :
    ∃ t, stepWith dt policy s = .next t ∧
      t.wait = none ∧ t.keyEvent = false ∧ t.pc = s.pc + 2 ∧ (t.reg x).toNat = s.lastKey.toNat ∧
      ∀ r, r ≠ x → t.reg r = s.reg r := by
  obtain ⟨t, hstep, hevent, -⟩ := waitingStepPolls dt policy s x hf hw
  obtain ⟨ht, hkey, hregs⟩ := hevent he
  exact ⟨t, hstep, congrArg State.wait ht, congrArg State.keyEvent ht, congrArg State.pc ht, hkey, hregs⟩

/-- A key-down event ends a wait at the next step, with the key that went DOWN (R219). -/
theorem stepWith_setKey_down (hf : s.fault = none) (hw : s.wait = some x) (hk : s.key k = .up) :
    ∃ t, stepWith dt policy (s.setKey k .down) = .next t ∧
      t.wait = none ∧ t.keyEvent = false ∧ t.pc = s.pc + 2 ∧ (t.reg x).toNat = k.toNat ∧
      ∀ r, r ≠ x → t.reg r = s.reg r := by
  rw [State.setKey_down s k hk]
  exact stepWith_of_waiting_event hf hw rfl

/-! ### The obligations of the keypad -/

/-- Settles O39: FX0A enters a wait of the kind that the first part is about. -/
theorem onlyNewKeyDownEndsWait : Obligations.OnlyNewKeyDownEndsWait := by
  constructor
  · intro dt policy x k s hf hw hq
    exact ⟨stepWith_of_waiting_quiet hf hw hq, fun st hk => stepWith_setKey_of_quiet hf hw hq hk,
      stepWith_setKey_down hf hw⟩
  · intro dt dt' policy x k s hf hk
    obtain ⟨v, hstep, hwait, hevent, hpc, hkey, -⟩ := stepWith_setKey_down (dt := dt') (policy := policy)
      (s := { s with wait := some x, keyEvent := false }.beginStep dt) hf rfl hk
    exact ⟨_, _, v, rfl, rfl, stepWith_of_waiting_quiet hf rfl rfl, rfl, rfl, fun _ => rfl,
      hstep, hwait, hevent, hpc, hkey⟩

/-- Settles O40: a number below 16 is that of a key, whose transitions are those of `State.setKey`. -/
theorem setKeyActsOnTransitions : Obligations.SetKeyActsOnTransitions := by
  intro s k st
  refine ⟨fun hk => ⟨if_neg hk.not_gt, if_neg hk.not_gt⟩, fun hk => ?_⟩
  obtain ⟨k, rfl⟩ : ∃ k' : Nibble, k'.toNat = k := ⟨BitVec.ofNatLT k hk, BitVec.toNat_ofNatLT k hk⟩
  rw [State.setKeyNumber_toNat, BitVec.ofNat_toNat, BitVec.setWidth_eq]
  refine ⟨State.getKey_toNat, fun hsame => ?_, fun hup hst => ?_, fun hdown hst => ?_⟩
  · rw [State.setKey_same hsame]
  · rw [hst, State.setKey_down s k hup]
  · rw [hst, State.setKey_up hdown]

/-- Settles O37: the key operand exists, and each skip tests its state. -/
theorem keySkipsTestLevel : Obligations.KeySkipsTestLevel := by
  intro x s h
  constructor
  · rw [exec, execSkp, State.keyAt_eq s x h]
    exact congrArg Host.Outcome.next (State.skipWhen_of_iff beq_iff_eq)
  · rw [exec, execSknp, State.keyAt_eq s x h]
    exact congrArg Host.Outcome.next (State.skipWhen_of_iff beq_iff_eq)

/-- Settles O38. -/
theorem waitKeyEntersWait : Obligations.WaitKeyEntersWait := fun _ _ => rfl

end Sys2Proof.Machine

/-! ## Index and memory

The instructions of `47_index_memory.md` in range: what they leave in `I`, in memory from `I` on and in the block of
registers. `I` itself is left alone by the three that access memory (R236, D21). -/

namespace Sys2Proof.Machine

variable {s : State} {x : Nibble}

/-! ### The instructions in range -/

/-- FX1E adds when the sum is an address (R230). -/
theorem exec_addI_of_inRange (h : s.I.toNat + (s.reg x).toNat ≤ 0xFFF) :
    exec (.addI x) s = .next (s.setI (BitVec.ofNat 16 (s.I.toNat + (s.reg x).toNat))).advance := by
  rcases execAddI_cases s x with ⟨-, he⟩ | ⟨hout, -⟩
  · exact he
  · omega

/-- FX33 stores three digits when they fit below 0x1000 (R232). -/
theorem exec_storeBcd_of_inRange (h : s.I.toNat + 2 ≤ 0xFFF) : exec (.storeBcd x) s =
    .next { s with mem := s.mem.writeBytes s.I.toNat (bcdDigits (s.reg x)), pc := s.pc + 2 } := by
  rcases execStoreBcd_cases s x with ⟨-, he⟩ | ⟨hout, -⟩
  · exact he
  · omega

/-- FX55 stores `V[0]` to `V[x]` when they fit below 0x1000 (R233). -/
theorem exec_storeRegs_of_inRange (h : s.I.toNat + x.toNat ≤ 0xFFF) : exec (.storeRegs x) s =
    .next { s with mem := s.mem.writeBytes s.I.toNat (s.regBlock x), pc := s.pc + 2 } := by
  rcases execStoreRegs_cases s x with ⟨-, he⟩ | ⟨hout, -⟩
  · exact he
  · omega

/-- FX65 loads `V[0]` to `V[x]` when their bytes lie below 0x1000 (R234). -/
theorem exec_loadRegs_of_inRange (h : s.I.toNat + x.toNat ≤ 0xFFF) : exec (.loadRegs x) s =
    .next { s with V := (s.setRegBlock 0 (s.mem.readBytes s.I.toNat (x.toNat + 1))).V, pc := s.pc + 2 } := by
  rcases execLoadRegs_cases s x with ⟨-, he⟩ | ⟨hout, -⟩
  · exact he
  · omega

/-! ### Addresses and blocks -/

/-- A number that fits the width is held as it is. -/
theorem toNat_ofNat_of_lt {w n : Nat} (h : n < 2 ^ w) : (BitVec.ofNat w n).toNat = n :=
  (BitVec.toNat_ofNat ..).trans (Nat.mod_eq_of_lt h)

/-- The highest glyph address is `0x050 + 5 * 255`, which 16 bits hold (R231). -/
theorem glyphAddr_toNat (v : Byte) : (glyphAddr v).toNat = 0x050 + 5 * v.toNat := by
  have hv := v.isLt
  rw [glyphAddr, Config.fontBase, Config.glyphBytes]
  exact toNat_ofNat_of_lt (by omega)

/-- Digit `j` of a byte that FX33 stored is at `j` bytes from the hundreds (R232). -/
theorem Memory.read_writeBytes_bcdDigit {m : Memory} (hm : m.wf) {a j d : Nat} {v : Byte} (ha : a + 2 ≤ 0xFFF)
    (hj : (bcdDigits v)[j]? = some (BitVec.ofNat 8 d)) (hd : d < 256) :
    ((m.writeBytes a (bcdDigits v)).read (a + j)).toNat = d := by
  obtain ⟨hlt, hdigit⟩ := List.getElem?_eq_some_iff.1 hj
  rw [Memory.read_writeBytes hm (Nat.lt_succ_of_le ha), dif_pos (by omega)]
  simp only [Nat.add_sub_cancel_left]
  rw [hdigit, toNat_ofNat_of_lt hd]

/-- FX65 loads `V[r]` from address `I + r` for every `r` up to `x`, and no register above (R234). -/
theorem State.reg_setRegBlock_readBytes (s : State) (x r : Nibble) (a : Nat) :
    (s.setRegBlock 0 (s.mem.readBytes a (x.toNat + 1))).reg r =
      if r.toNat ≤ x.toNat then s.mem.read (a + r.toNat) else s.reg r := by
  split_ifs with hr
  · have hx := x.isLt
    rw [State.reg_setRegBlock _ _ _ _ (by rw [Memory.readBytes_length]; omega),
      dif_pos (by rw [Memory.readBytes_length]; omega), Memory.readBytes_getElem, Nat.sub_zero]
  · exact State.reg_setRegBlock_above hr a

/-! ### The obligations of index and memory -/

/-- Settles O44: the digits of a byte, 255 at most, each fit the byte they are stored in. -/
theorem bcdStoresThreeDigits : Obligations.BcdStoresThreeDigits := by
  intro x s hm hI
  have hv := (s.reg x).isLt
  exact ⟨_, exec_storeBcd_of_inRange hI, rfl, Memory.read_writeBytes_bcdDigit hm hI (j := 0) rfl (by omega),
    Memory.read_writeBytes_bcdDigit hm hI rfl (by omega), Memory.read_writeBytes_bcdDigit hm hI rfl (by omega),
    fun a ha => Memory.read_writeBytes_outside hm ha⟩

/-- Settles O45. -/
theorem storeRegistersWritesBlock : Obligations.StoreRegistersWritesBlock := by
  intro x s hm hI
  refine ⟨_, exec_storeRegs_of_inRange hI, rfl, fun r hr => ?_, fun a ha => ?_⟩
  · rw [State.read_store_regBlock hm hI hr, BitVec.ofNat_toNat, BitVec.setWidth_eq]
  · exact Memory.read_writeBytes_outside hm (by rw [State.regBlock_length]; omega)

/-- Settles O46. -/
theorem loadRegistersReadsBlock : Obligations.LoadRegistersReadsBlock :=
  fun x s hI => ⟨_, exec_loadRegs_of_inRange hI, rfl, fun r => s.reg_setRegBlock_readBytes x r s.I.toNat⟩

/-- Settles O42: a sum in the address space fits 16 bits. -/
theorem addIndexWithinSpace : Obligations.AddIndexWithinSpace :=
  fun _ _ hI => ⟨_, exec_addI_of_inRange hI, rfl, toNat_ofNat_of_lt (by omega)⟩

/-- Settles O43. -/
theorem fontLookupScalesByFive : Obligations.FontLookupScalesByFive :=
  fun x s => ⟨_, rfl, rfl, glyphAddr_toNat (s.reg x)⟩

end Sys2Proof.Machine

/-! ## Exceptions

An invalid word under either policy (`60_exceptions.md` R255), the table of exact fault conditions (R254), and that
every step answers a next state (R252). -/

namespace Sys2Proof.Machine

variable {s : State} {dt : NNRat} {policy : Policy}

/-! ### Invalid words -/

/-- A fetch in range of a word that is no instruction goes by the policy (R255). -/
theorem State.fetchAndExecute_of_invalid (hpc : s.pc.toNat ≤ 0xFFE) (hd : decodeWord s.fetchWord = none) :
    s.fetchAndExecute policy = .next (s.invalidOpcode policy s.fetchWord) := by
  rw [State.fetchAndExecute, if_pos (State.canFetch_iff.2 hpc), hd]

/-- A step that fetches a word that is no instruction goes by the policy, after its timer and flag phases (R255). -/
theorem stepWith_of_invalid (hf : s.fault = none) (hw : s.wait = none) (hpc : s.pc.toNat ≤ 0xFFE)
    (hd : decodeWord s.fetchWord = none) :
    stepWith dt policy s = .next ((s.beginStep dt).invalidOpcode policy s.fetchWord) := by
  rw [stepWith_of_running hf hw]
  exact State.fetchAndExecute_of_invalid (s := s.beginStep dt) hpc hd

/-! ### The table of fault conditions -/

/-- Under its condition in the table of R254 an instruction raises the table's fault with its own word, else it leaves
the fault field alone. -/
theorem exec_faults_as_tabled (i : Instr) (s : State) :
    (∃ k, i.faultOf s = some k ∧ exec i s = .next (s.raise k (some (encode i)))) ∨
    (i.faultOf s = none ∧ ∃ t, exec i s = .next t ∧ t.fault = s.fault) := by
  cases i with
  | ret =>
    rcases execRet_cases s with ⟨_, hs, -, he⟩ | ⟨hs, he⟩
    · exact .inr ⟨if_neg hs.ne', _, he, rfl⟩
    · exact .inl ⟨_, if_pos hs, he⟩
  | call nnn =>
    rcases execCall_cases s nnn with ⟨hs, he⟩ | ⟨hs, he⟩
    · exact .inr ⟨if_neg hs.ne, _, he, rfl⟩
    · exact .inl ⟨_, if_pos hs, he⟩
  | skp x =>
    rcases execSkp_cases s x with ⟨hx, he⟩ | ⟨hx, he⟩
    · exact .inr ⟨if_neg (by omega), _, he, rfl⟩
    · exact .inl ⟨_, if_pos hx, he⟩
  | sknp x =>
    rcases execSknp_cases s x with ⟨hx, he⟩ | ⟨hx, he⟩
    · exact .inr ⟨if_neg (by omega), _, he, rfl⟩
    · exact .inl ⟨_, if_pos hx, he⟩
  | drw x y n =>
    rcases execDrw_cases s x y n with ⟨hI, he⟩ | ⟨hn, hI, he⟩
    · exact .inr ⟨if_neg (by omega), _, he, rfl⟩
    · exact .inl ⟨_, if_pos (by omega), he⟩
  | addI x =>
    rcases execAddI_cases s x with ⟨hI, he⟩ | ⟨hI, he⟩
    · exact .inr ⟨if_neg hI.not_gt, _, he, rfl⟩
    · exact .inl ⟨_, if_pos hI, he⟩
  | storeBcd x =>
    rcases execStoreBcd_cases s x with ⟨hI, he⟩ | ⟨hI, he⟩
    · exact .inr ⟨if_neg hI.not_gt, _, he, rfl⟩
    · exact .inl ⟨_, if_pos hI, he⟩
  | storeRegs x =>
    rcases execStoreRegs_cases s x with ⟨hI, he⟩ | ⟨hI, he⟩
    · exact .inr ⟨if_neg hI.not_gt, _, he, rfl⟩
    · exact .inl ⟨_, if_pos hI, he⟩
  | loadRegs x =>
    rcases execLoadRegs_cases s x with ⟨hI, he⟩ | ⟨hI, he⟩
    · exact .inr ⟨if_neg hI.not_gt, _, he, rfl⟩
    · exact .inl ⟨_, if_pos hI, he⟩
  | _ => exact .inr ⟨rfl, _, rfl, rfl⟩

/-! ### The obligations of the exceptions -/

/-- Settles O12: the fetched word is that of the two bytes at `pc`, and the begin of the step leaves both alone. -/
theorem invalidOpcodeHaltsOrSkips : Obligations.InvalidOpcodeHaltsOrSkips := fun _ _ hf hw hpc hd =>
  ⟨⟨_, stepWith_of_invalid hf hw hpc hd, rfl⟩, stepWith_of_invalid hf hw hpc hd⟩

/-- Every way a step can end is a next state (R252). -/
theorem stepWith_answers_next (dt : NNRat) (policy : Policy) (s : State) : ∃ t, stepWith dt policy s = .next t := by
  rcases stepWith_cases (Eq.refl (stepWith dt policy s)) with ⟨-, ho⟩ | ⟨-, _, -, ho⟩ | ⟨-, -, -, ho⟩ |
    ⟨-, -, -, -, ho⟩ | ⟨-, -, -, i, -, ho⟩
  · exact ⟨_, ho⟩
  · exact ⟨_, ho⟩
  · exact ⟨_, ho⟩
  · exact ⟨_, ho⟩
  · obtain ⟨t, ht, -⟩ := exec_effect i (s.beginStep dt)
    exact ⟨t, ho.trans ht⟩

/-- Settles O13. -/
theorem stepAlwaysAnswersNext : Obligations.StepAlwaysAnswersNext :=
  ⟨fun s => stepWith_answers_next (Config.stepDelta s.stepIndex) Config.invalidOpcodePolicy s, stepWith_answers_next⟩

/-- Settles O52. -/
theorem faultsExactlyWhereTheTableSays : Obligations.FaultsExactlyWhereTheTableSays := by
  intro i s
  rcases exec_faults_as_tabled i s with ⟨k, hk, he⟩ | ⟨hnone, t, he, hfault⟩
  · refine ⟨_, he, fun k' hk' => ?_, fun hnone => ?_⟩
    · cases hk.symm.trans hk'
      exact s.raise_fault k (some (encode i))
    · cases hk.symm.trans hnone
  · refine ⟨t, he, fun k hk => ?_, fun _ => hfault⟩
    cases hnone.symm.trans hk

end Sys2Proof.Machine

/-! ## Reset

The contents of memory after a RESET and the RESET of a machine that exists (`70_reset_and_hazards.md` R280 to R283). -/

namespace Sys2Proof.Machine

/-! ### Reset contents of memory -/

/-- The font copy (R281). -/
theorem Memory.blank_font (j : Fin 80) : Memory.blank (0x050 + j.val) = Config.fontRom[j] := by
  have hj := j.isLt
  rw [Memory.blank, dif_pos (by rw [Config.fontBase]; omega)]
  simp only [Config.fontBase, Nat.add_sub_cancel_left, Fin.getElem_fin]

/-- 0x00 outside the font copy (R281). -/
theorem Memory.blank_outside_font {a : Nat} (ha : a < 0x050 ∨ 0x0A0 ≤ a) : Memory.blank a = 0 :=
  dif_neg (by rw [Config.fontBase]; omega)

/-- Memory after a RESET: the image in its place, the reset contents elsewhere (R281). -/
theorem State.read_reset_writeBytes {image : List Byte} (h : image.length ≤ 3584) (a : Nat) :
    (State.reset.mem.writeBytes 0x200 image).read a =
      if ha : 0x200 ≤ a ∧ a < 0x200 + image.length then image[a - 0x200]'(by omega) else Memory.blank a :=
  Memory.read_writeBytes Memory.empty_wf (by rw [Config.memSize]; omega) a

/-! ### The obligations of the reset -/

/-- Settles O48: the image starts above the font copy, so the two do not overlap. -/
theorem memoryAtReset : Obligations.MemoryAtReset := by
  intro image hlen
  rcases State.load_cases image with ⟨-, hl⟩ | ⟨hlong, -⟩
  · refine ⟨_, hl, fun a _ => ⟨fun j hj => ?_, fun ha => ?_, fun ha => ?_⟩⟩
    · have hfont := j.isLt
      rw [State.read_reset_writeBytes hlen, dif_neg (by omega), hj, Memory.blank_font]
    · rw [State.read_reset_writeBytes hlen, dif_pos ha]
    · rw [State.read_reset_writeBytes hlen, dif_neg (by omega), Memory.blank_outside_font (by omega)]
  · omega

/-- Settles O50: RESET of a machine that exists is that of a new one, but for the counters it carries on. -/
theorem resetOfAnyMachineStartsAfresh : Obligations.ResetOfAnyMachineStartsAfresh := by
  intro policy s image
  rcases State.load_cases image with ⟨hlen, hl⟩ | ⟨hlen, hl⟩
  · refine ⟨fun _ => ⟨_, hl, ?_⟩, fun h => absurd h hlen.not_gt⟩
    rw [transact, State.reload, hl]
  · refine ⟨fun h => absurd hlen h.not_gt, fun _ => ?_⟩
    rw [transact, State.reload, hl]

end Sys2Proof.Machine
